-- ==== Sys2Proof/Word.lean ====
section
/-! DEFINITION. The three widths of E2CORE's bit vectors (00_scope.md R7, R9; 30_encoding.md R61). -/

namespace Sys2Proof

/-- A 32-bit word: a command word, a response word, FBUF, STATUS. Bit 0 is the least significant (R9). -/
abbrev Word := BitVec 32

/-- A 16-bit value: the IMM field (R61), EL and PER (PW = 16), a slot of the ring buffer (VW = 16) (R7). -/
abbrev Half := BitVec 16

/-- An 8-bit value: the OP and IDX fields (R61), CUR (R26), WIX (R29), CNT (R30). -/
abbrev Octet := BitVec 8

end Sys2Proof
end

