-- ==== Sys2Proof/Syntax.lean ====
section
/-! DEFINITION. The commands of E2CORE: one constructor per row of spec/opcode_table.json (30_encoding.md R65). -/

namespace Sys2Proof

/-- The 19 commands of E2CORE-CMD-v1 (R65). An operand has the type of the field that carries it (R61, R62), so a term of
this type holds neither an operand that does not fit its field nor a value in an unused field (R63). -/
inductive Instr where
  /-- SCH_INIT, 0x10 (R75). -/
  | schInit
  /-- SCH_SETPER idx, period, 0x11 (R80). -/
  | schSetper (idx : Octet) (period : Half)
  /-- SCH_TICK, 0x12 (R77). -/
  | schTick
  /-- SCH_RDDESC idx, 0x13 (R84). -/
  | schRddesc (idx : Octet)
  /-- SCH_RDPER idx, 0x14 (R86). -/
  | schRdper (idx : Octet)
  /-- SCH_RDREADY, 0x15 (R88). -/
  | schRdready
  /-- DSP_STEP, 0x20 (R91). -/
  | dspStep
  /-- DSP_DONE, 0x21 (R94). -/
  | dspDone
  /-- DSP_RDSTAT, 0x22 (R97). -/
  | dspRdstat
  /-- RB_CLEAR, 0x30 (R102). -/
  | rbClear
  /-- RB_PUSH value, 0x31 (R103). -/
  | rbPush (value : Half)
  /-- RB_AVG, 0x32 (R105). -/
  | rbAvg
  /-- RB_LAST, 0x33 (R108). -/
  | rbLast
  /-- RB_STAT, 0x34 (R110). -/
  | rbStat
  /-- FMT_VAL value, 0x40 (R115). -/
  | fmtVal (value : Half)
  /-- FMT_AVG, 0x41 (R119). -/
  | fmtAvg
  /-- FMT_RDBUF, 0x42 (R121). -/
  | fmtRdbuf
  /-- CTL_RDSTATUS, 0xF0 (R124). -/
  | ctlRdstatus
  /-- CTL_CLRERR, 0xF1 (R126). -/
  | ctlClrerr
  deriving DecidableEq, Repr

end Sys2Proof
end

