-- ==== Sys2Proof/Decode.lean ====
section
/-! DEFINITION. Command words: the fields of format C32, the opcode table, the decoder and the encoder (30_encoding.md
R61 to R68). -/

namespace Sys2Proof

/-- The OP field, w[31:24] (R61). -/
def opField (w : Word) : Octet := w.extractLsb' 24 8

/-- The IDX field, w[23:16] (R61, R62). -/
def idxField (w : Word) : Octet := w.extractLsb' 16 8

/-- The IMM field, w[15:0] (R61, R62). -/
def immField (w : Word) : Half := w.extractLsb' 0 16

/-- A word of format C32: OP in bits 31:24, IDX in 23:16, IMM in 15:0 (R61). -/
def c32 (op idx : Octet) (imm : Half) : Word := op ++ idx ++ imm

/-- One row of the opcode map (R65). -/
structure Row where
  mnemonic : String
  op : Octet
  /-- The IDX column: `true` for `I`, `false` for `0`. -/
  usesIdx : Bool
  /-- The IMM column: `true` for `I`, `false` for `0`. -/
  usesImm : Bool
  /-- The column `match`. -/
  pattern : Word
  mask : Word
  /-- The command, from the IDX and IMM fields. -/
  build : Octet → Half → Instr

/-- The SCH rows of R65. -/
def schRows : List Row :=
  [ ⟨"SCH_INIT", 0x10#8, false, false, 0x10000000#32, 0xFFFFFFFF#32, fun _ _ => .schInit⟩,
    ⟨"SCH_SETPER", 0x11#8, true, true, 0x11000000#32, 0xFF000000#32, fun idx imm => .schSetper idx imm⟩,
    ⟨"SCH_TICK", 0x12#8, false, false, 0x12000000#32, 0xFFFFFFFF#32, fun _ _ => .schTick⟩,
    ⟨"SCH_RDDESC", 0x13#8, true, false, 0x13000000#32, 0xFF00FFFF#32, fun idx _ => .schRddesc idx⟩,
    ⟨"SCH_RDPER", 0x14#8, true, false, 0x14000000#32, 0xFF00FFFF#32, fun idx _ => .schRdper idx⟩,
    ⟨"SCH_RDREADY", 0x15#8, false, false, 0x15000000#32, 0xFFFFFFFF#32, fun _ _ => .schRdready⟩ ]

/-- The dispatcher rows of R65. -/
def dspRows : List Row :=
  [ ⟨"DSP_STEP", 0x20#8, false, false, 0x20000000#32, 0xFFFFFFFF#32, fun _ _ => .dspStep⟩,
    ⟨"DSP_DONE", 0x21#8, false, false, 0x21000000#32, 0xFFFFFFFF#32, fun _ _ => .dspDone⟩,
    ⟨"DSP_RDSTAT", 0x22#8, false, false, 0x22000000#32, 0xFFFFFFFF#32, fun _ _ => .dspRdstat⟩ ]

/-- The RB rows of R65. -/
def rbRows : List Row :=
  [ ⟨"RB_CLEAR", 0x30#8, false, false, 0x30000000#32, 0xFFFFFFFF#32, fun _ _ => .rbClear⟩,
    ⟨"RB_PUSH", 0x31#8, false, true, 0x31000000#32, 0xFFFF0000#32, fun _ imm => .rbPush imm⟩,
    ⟨"RB_AVG", 0x32#8, false, false, 0x32000000#32, 0xFFFFFFFF#32, fun _ _ => .rbAvg⟩,
    ⟨"RB_LAST", 0x33#8, false, false, 0x33000000#32, 0xFFFFFFFF#32, fun _ _ => .rbLast⟩,
    ⟨"RB_STAT", 0x34#8, false, false, 0x34000000#32, 0xFFFFFFFF#32, fun _ _ => .rbStat⟩ ]

/-- The FMT and CTL rows of R65. -/
def fmtCtlRows : List Row :=
  [ ⟨"FMT_VAL", 0x40#8, false, true, 0x40000000#32, 0xFFFF0000#32, fun _ imm => .fmtVal imm⟩,
    ⟨"FMT_AVG", 0x41#8, false, false, 0x41000000#32, 0xFFFFFFFF#32, fun _ _ => .fmtAvg⟩,
    ⟨"FMT_RDBUF", 0x42#8, false, false, 0x42000000#32, 0xFFFFFFFF#32, fun _ _ => .fmtRdbuf⟩,
    ⟨"CTL_RDSTATUS", 0xF0#8, false, false, 0xF0000000#32, 0xFFFFFFFF#32, fun _ _ => .ctlRdstatus⟩,
    ⟨"CTL_CLRERR", 0xF1#8, false, false, 0xF1000000#32, 0xFFFFFFFF#32, fun _ _ => .ctlClrerr⟩ ]

/-- The opcode map (R65), in its order. -/
def rows : List Row := schRows ++ dspRows ++ rbRows ++ fmtCtlRows

/-- Why a word decodes to ILL (R63, R67). Both are refused with code 1; the block does not tell them apart (log 19). -/
inductive IllegalWord where
  /-- The OP is in no row of R65. -/
  | undefinedOp
  /-- The OP is in a row, and a field that row does not use is not zero. -/
  | nonzeroUnusedField
  deriving DecidableEq, Repr

/-- Decoding, total on every word (R66). -/
def decode (w : Word) : Except IllegalWord Instr :=
  match rows.find? (fun r => r.op == opField w) with
  | none => .error .undefinedOp
  | some r =>
    if w &&& r.mask = r.pattern then .ok (r.build (idxField w) (immField w))
    else .error .nonzeroUnusedField

/-- The command word of a command (R61, R63, R65). -/
def encode : Instr → Word
  | .schInit => c32 0x10#8 0#8 0#16
  | .schSetper idx period => c32 0x11#8 idx period
  | .schTick => c32 0x12#8 0#8 0#16
  | .schRddesc idx => c32 0x13#8 idx 0#16
  | .schRdper idx => c32 0x14#8 idx 0#16
  | .schRdready => c32 0x15#8 0#8 0#16
  | .dspStep => c32 0x20#8 0#8 0#16
  | .dspDone => c32 0x21#8 0#8 0#16
  | .dspRdstat => c32 0x22#8 0#8 0#16
  | .rbClear => c32 0x30#8 0#8 0#16
  | .rbPush value => c32 0x31#8 0#8 value
  | .rbAvg => c32 0x32#8 0#8 0#16
  | .rbLast => c32 0x33#8 0#8 0#16
  | .rbStat => c32 0x34#8 0#8 0#16
  | .fmtVal value => c32 0x40#8 0#8 value
  | .fmtAvg => c32 0x41#8 0#8 0#16
  | .fmtRdbuf => c32 0x42#8 0#8 0#16
  | .ctlRdstatus => c32 0xF0#8 0#8 0#16
  | .ctlClrerr => c32 0xF1#8 0#8 0#16

/-- The 32-bit command word whose low `nbits` bits are `w`'s and whose other bits are 0. Every command is one 32-bit word
(R68), so the opcode table's numbering of its bits is R9's. -/
def tableWord (nbits w : Nat) : Word := BitVec.ofNat 32 (w % 2 ^ nbits)

/-- The command the decoder reads from the bits of an opcode-table word; none where it refuses. A number that needs more
than 32 bits is no command word (20_memory.md R48). -/
def decodeTableWord (nbits w : Nat) : Option Instr :=
  if w % 2 ^ nbits < 2 ^ 32 then
    match decode (tableWord nbits w) with
    | .ok i => some i
    | .error _ => none
  else none

end Sys2Proof
end

