-- ==== Sys2Proof/Config.lean ====
section
/-! DEFINITION. The implementation parameters of 00_scope.md R7. They are arguments of `State.resetOf`, not state
(10_state.md R41). -/

namespace Sys2Proof

/-- The parameters R7 leaves OPEN, each a named argument (I9). NTASK is not stored twice: it is the number of reset
periods, one per descriptor (`Params.nTask`, log 1). -/
structure Params where
  /-- PERIOD_INIT[i] for i = 0 .. NTASK-1: the reset value of PER[i] (R7, D12). -/
  periodInit : List Half
  /-- CAP: the ring buffer's capacity (R7, D9). -/
  cap : Nat
  /-- TICK_PERIOD in microseconds: timing only, no rule depends on it (R7, D32), so nothing reads it (log 16). -/
  tickPeriodUs : Nat
  /-- CMD_PORT_BASE, where the host maps the command port, if it does: no rule depends on it (R7, R45, D27), so nothing
  reads it (log 16). -/
  cmdPortBase : Option Nat
  deriving DecidableEq, Repr

/-- NTASK, the number of descriptors (R7, R21). -/
def Params.nTask (p : Params) : Nat := p.periodInit.length

/-- DESIGN CHOICE (log 2, unsafe): the parameter values `State.reset` is built with, those of Program 1 of
95_test_vectors.md: NTASK = 3, CAP = 5, PERIOD_INIT = [1, 1, 1]. CAP = 5 and TICK_PERIOD = 1 ms are the reference values
of R7; no port mapping is chosen. -/
def Params.reference : Params :=
  { periodInit := [1#16, 1#16, 1#16], cap := 5, tickPeriodUs := 1000, cmdPortBase := none }

end Sys2Proof
end

