-- ==== Sys2Proof/Machine/State.lean ====
section
/-! DEFINITION. What E2CORE holds (10_state.md), the outside world's operations and what it answers them, the reasons a
step can stop, and the state after reset. -/

namespace Sys2Proof.Machine

/-- The three values of ST[i] (R22). The 2-bit value 3 is in no rule and unreachable, so it is left out (I4, log 9). -/
inductive TaskState where
  | standby
  | ready
  | execute
  deriving DecidableEq, Repr

/-- Descriptor i: the triple (ST[i], EL[i], PER[i]) (00_scope.md R16; 10_state.md R22 to R24). -/
structure Descr where
  /-- ST[i] (R22). -/
  st : TaskState
  /-- EL[i] (R23): ticks since the descriptor last crossed its period. -/
  el : Half
  /-- PER[i] (R24): the period, in ticks. -/
  per : Half
  deriving DecidableEq, Repr

/-- The five causes of a refusal (60_exceptions.md R132). -/
inductive CmdError where
  /-- Code 1: the command word decodes to ILL. -/
  | ill
  /-- Code 2: a task index is at least NTASK. -/
  | badIdx
  /-- Code 3: SCH_SETPER with period 0. -/
  | badPer
  /-- Code 4: DSP_STEP while BUSY, or DSP_DONE while not BUSY. -/
  | seq
  /-- Code 5: a formatter input above 99. -/
  | range
  deriving DecidableEq, Repr

/-- A command's response (30_encoding.md R69). -/
structure Response where
  ok : Bool
  word : Word
  deriving DecidableEq, Repr

/-- One operation of the total order of 00_scope.md R14: what an agent does to the block (R13, R142). -/
inductive Op where
  /-- The TICK agent: one pulse on TICK_IN (60_exceptions.md R138). -/
  | tickIn
  /-- The HOST agent: one command word on the command port (R150). -/
  | command (w : Word)
  deriving DecidableEq, Repr

/-- The block's state (10_state.md), and two fields of the model's own: the operations still to come and the responses
given. NTASK is the length of `table` and CAP the length of `slot`: no operation inserts or removes an entry (R21, R28,
R41; log 1). -/
structure State where
  /-- The task-descriptor table, ST, EL and PER, in index order (R21 to R24). -/
  table : List Descr
  /-- CUR (R26): the index the dispatcher visits next. -/
  cur : Octet
  /-- BUSY (R27). -/
  busy : Bool
  /-- SLOT[0 .. CAP-1] (R28). -/
  slot : List Half
  /-- WIX (R29): the next-write index. -/
  wix : Octet
  /-- CNT (R30): the valid-count. -/
  cnt : Octet
  /-- FBUF (R32): character k in bits 8k+7:8k. -/
  fbuf : Word
  /-- STATUS (R33). -/
  status : Word
  /-- The model's own: the responses to HOST commands so far, NEWEST FIRST, the observation of 00_scope.md R18 (log 6). -/
  responses : List Response
  /-- The model's own: the operations of both agents still to be applied, next one first, in the total order of
  00_scope.md R14 (log 4). Not a queue of the block (R41). -/
  inputs : List Op
  deriving DecidableEq, Repr

/-- The reasons a step can stop with a fault: none. E2CORE raises no trap (R128), a refused command is a defined outcome
(R131), and "every operation has a step in every state" (R149). Nothing raises one, and that is safe (log 10). -/
inductive Fault where
  deriving DecidableEq, Repr

/-- The reasons a step has no meaning. -/
inductive Refusal where
  /-- An instruction of the opcode table without a meaning yet, by its mnemonic. Raised by no arm of `exec`: every command
  has its meaning. Safe. -/
  | notModelled (mnemonic : String)
  deriving DecidableEq, Repr

/-- The state right after reset (10_state.md R40, 70_reset_and_hazards.md R151), for the parameters `p`. R40 leaves the
slots unspecified: slot j holds `fill j`, whatever that is (I2). No command or tick is in flight (R151). -/
def State.resetOf (p : Params) (fill : Nat → Half) : State :=
  { table := p.periodInit.map (fun period => { st := .standby, el := 0#16, per := period })
    cur := 0#8
    busy := false
    slot := (List.range p.cap).map fill
    wix := 0#8
    cnt := 0#8
    fbuf := 0#32
    status := 0#32
    responses := []
    inputs := [] }

/-- The state right after reset at the reference parameters (DESIGN CHOICE, log 2), every slot holding 0 (DESIGN CHOICE,
log 3: R40 gives the slots no reset value). -/
def State.reset : State := State.resetOf Params.reference (fun _ => 0#16)

end Sys2Proof.Machine
end

