-- ==== Sys2Proof/Machine/Flags.lean ====
section
/-! DEFINITION. The flags a program can observe (10_state.md R34): the STATUS bits and LASTERR (R33, 60_exceptions.md
R131), and the READY flags (40_scheduler.md R88). -/

namespace Sys2Proof.Machine

/-- The error code of a refusal, 1 to 5 (R132). -/
def CmdError.code : CmdError → Nat
  | .ill => 1
  | .badIdx => 2
  | .badPer => 3
  | .seq => 4
  | .range => 5

/-- The STATUS bit a refusal sets: STATUS[code - 1] (R131, R132). -/
def CmdError.stickyBit (e : CmdError) : Nat := e.code - 1

/-- zext_32(code), the response word of a refusal (R131). -/
def CmdError.codeWord (e : CmdError) : Word := BitVec.ofNat 32 e.code

/-- LASTERR, STATUS[10:8] (R33). -/
def lastErr (status : Word) : BitVec 3 := status.extractLsb' 8 3

/-- STATUS after a refusal: the sticky bit set, LASTERR replaced by the code, every other bit kept (R131). -/
def statusAfter (e : CmdError) (status : Word) : Word :=
  ((status &&& 0xFFFFF8FF#32) ||| (e.codeWord <<< 8)) ||| (1#32 <<< e.stickyBit)

/-- The READY flag of a descriptor: `ST[i] = READY` (R34). -/
def Descr.isReady (d : Descr) : Bool := d.st == .ready

/-- The loop of SCH_RDREADY (R88): from mask `m`, with `ds` the descriptors from index `i` on, set bit i of m for every
READY descriptor. -/
def readyMaskFrom : Nat → List Descr → Word → Word
  | _, [], m => m
  | i, d :: ds, m => readyMaskFrom (i + 1) ds (if d.isReady then m ||| (1#32 <<< i) else m)

/-- The READY flags as a word: bit i is descriptor i's (R88). -/
def readyMask (table : List Descr) : Word := readyMaskFrom 0 table 0#32

end Sys2Proof.Machine
end

