-- ==== Sys2Proof/Machine/Operands.lean ====
section
/-! DEFINITION. What a command's operand names (30_encoding.md R62), and the layout of each response word (R69). -/

namespace Sys2Proof.Machine

/-- NTASK (R7, R21). -/
def State.nTask (s : State) : Nat := s.table.length

/-- CAP (R7, R28). -/
def State.cap (s : State) : Nat := s.slot.length

/-- ST[i]; none for i at least NTASK. -/
def State.stAt (s : State) (i : Nat) : Option TaskState := (s.table[i]?).map Descr.st

/-- EL[i]; none for i at least NTASK. -/
def State.elAt (s : State) (i : Nat) : Option Half := (s.table[i]?).map Descr.el

/-- PER[i]; none for i at least NTASK. -/
def State.perAt (s : State) (i : Nat) : Option Half := (s.table[i]?).map Descr.per

/-- SLOT[j]; none for j at least CAP. -/
def State.slotAt (s : State) (j : Nat) : Option Half := s.slot[j]?

/-- The descriptor an IDX operand names: IDX is zero-extended and compared against NTASK (R62). None when IDX ≥ NTASK. -/
def State.descrOf (s : State) (idx : Octet) : Option Descr := s.table[idx.toNat]?

/-- The encoding of ST[i] (R22). -/
def TaskState.code : TaskState → BitVec 2
  | .standby => 0#2
  | .ready => 1#2
  | .execute => 2#2

/-- SCH_RDDESC's word: {14'b0, ST[1:0], EL[15:0]} (R84). -/
def descrWord (d : Descr) : Word := 0#14 ++ d.st.code ++ d.el

/-- zext_32 of a 16-bit value: SCH_RDPER, RB_LAST (R86, R108). -/
def halfWord (v : Half) : Word := v.setWidth 32

/-- DSP_STEP's and DSP_DONE's word: {RUN, WRAP, 22'b0, c[7:0]} (R91, R94). -/
def visitWord (run wrap : Bool) (c : Octet) : Word :=
  BitVec.ofBool run ++ BitVec.ofBool wrap ++ 0#22 ++ c

/-- DSP_RDSTAT's word: {23'b0, BUSY, CUR[7:0]} (R97). -/
def dispatcherWord (busy : Bool) (cur : Octet) : Word := 0#23 ++ BitVec.ofBool busy ++ cur

/-- RB_STAT's word: {16'b0, CNT[7:0], WIX[7:0]} (R110). -/
def ringWord (cnt wix : Octet) : Word := 0#16 ++ cnt ++ wix

end Sys2Proof.Machine
end

