-- ==== Sys2Proof/Machine/Ops.lean ====
section
/-! DEFINITION. The operations the meanings share: responding, refusing a command (E2CORE's only exception mechanism,
60_exceptions.md R128 to R131), one tick of one descriptor, moving the dispatcher on, the ring buffer's read window, and
taking the next operation from the outside. -/

namespace Sys2Proof.Machine

/-! ### Responding and refusing -/

/-- `respond(ok, w)` (00_scope.md R10, 30_encoding.md R69): the response joins the sequence the host has seen. -/
def State.respond (s : State) (ok : Bool) (w : Word) : State :=
  { s with responses := { ok := ok, word := w } :: s.responses }

/-- `raise CmdError(code)` (R131): the sticky bit and LASTERR, the response (0, code), and nothing else. E2CORE has no
other exception entry (R128, R136) and no return from one (R137). -/
def State.raiseCmdError (s : State) (e : CmdError) : State :=
  { s with status := statusAfter e s.status }.respond false e.codeWord

/-- The index check of a command that names a descriptor (R133 step 2): BADIDX when IDX ≥ NTASK, else go on with the
descriptor. -/
def State.withDescr (s : State) (idx : Octet) (go : Descr → State) : State :=
  match s.descrOf idx with
  | none => s.raiseCmdError .badIdx
  | some d => go d

/-! ### The descriptor table -/

/-- A crossing: `EL[i] + 1 >= PER[i]`, on the values before the tick (40_scheduler.md R73), in unbounded arithmetic (R11,
R79). -/
def Descr.crosses (d : Descr) : Bool := decide (d.per.toNat ≤ d.el.toNat + 1)

/-- One tick of one descriptor (R77): on a crossing READY whatever ST was (R78) and EL = 0, else EL + 1. -/
def Descr.tick (d : Descr) : Descr :=
  if d.crosses then { d with st := .ready, el := 0#16 }
  else { d with el := BitVec.ofNat 16 (d.el.toNat + 1) }

/-- The loop of SCH_TICK over every descriptor, as one atomic step (R77, 20_memory.md R55). -/
def State.tickAll (s : State) : State := { s with table := s.table.map Descr.tick }

/-- ST[i] <- st. -/
def State.setSt (s : State) (i : Nat) (st : TaskState) : State :=
  { s with table := s.table.modify i (fun d => { d with st := st }) }

/-- PER[i] <- period. -/
def State.setPer (s : State) (i : Nat) (period : Half) : State :=
  { s with table := s.table.modify i (fun d => { d with per := period }) }

/-! ### The dispatcher -/

/-- `(c + 1) mod NTASK` for c = CUR (41_dispatcher.md R91, R94). -/
def State.nextCur (s : State) : Octet := BitVec.ofNat 8 ((s.cur.toNat + 1) % s.nTask)

/-- `1 if c + 1 = NTASK else 0` for c = CUR (R91, R94). -/
def State.wraps (s : State) : Bool := s.cur.toNat + 1 == s.nTask

/-! ### The ring buffer -/

/-- `SLOT[(WIX + CAP - k) mod CAP]`, the value pushed k pushes ago, k = 1 the most recent (10_state.md R31). -/
def State.pushedAgo (s : State) (k : Nat) : Half :=
  s.slot.getD ((s.wix.toNat + s.cap - k) % s.cap) 0#16

/-- The read window: the CNT most recently pushed values, newest first (42_ringbuffer.md R101). -/
def State.window (s : State) : List Half := (List.range s.cnt.toNat).map (fun j => s.pushedAgo (j + 1))

/-- The truncated mean of the read window, 0 when it is empty (R105); the sum is exact (R106). -/
def State.average (s : State) : Nat :=
  if s.cnt = 0#8 then 0 else (s.window.map BitVec.toNat).sum / s.cnt.toNat

/-! ### The outside world -/

/-- The next operation of the total order, and the state without it (00_scope.md R14); none when no agent drives the
block any more. -/
def State.takeOp (s : State) : Option (Op × State) :=
  match s.inputs with
  | [] => none
  | op :: rest => some (op, { s with inputs := rest })

/-- The same state with a command of the HOST next in the total order (log 7). -/
def State.offerCommand (s : State) (w : Word) : State := { s with inputs := .command w :: s.inputs }

end Sys2Proof.Machine
end

