-- ==== Sys2Proof/Machine/Control.lean ====
section
/-! DEFINITION. The control commands (44_control.md). -/

namespace Sys2Proof.Machine

/-- CTL_RDSTATUS (R124). -/
def execCtlRdstatus (s : State) : Host.Outcome State Fault Refusal :=
  .next (s.respond true s.status)

/-- CTL_CLRERR (R126): read and clear in one step; the response is STATUS before the clear. -/
def execCtlClrerr (s : State) : Host.Outcome State Fault Refusal :=
  .next ({ s with status := 0#32 }.respond true s.status)

end Sys2Proof.Machine
end

