-- ==== Sys2Proof/Machine/Dispatcher.lean ====
section
/-! DEFINITION. The dispatcher commands (41_dispatcher.md). -/

namespace Sys2Proof.Machine

/-- The run visit of DSP_STEP (R91): EXECUTE and BUSY; CUR is not advanced. -/
def State.runVisit (s : State) : State :=
  ({ s.setSt s.cur.toNat .execute with busy := true }).respond true (visitWord true false s.cur)

/-- The idle visit of DSP_STEP (R91): CUR moves on. -/
def State.idleVisit (s : State) : State :=
  ({ s with cur := s.nextCur }).respond true (visitWord false s.wraps s.cur)

/-- DSP_STEP (R91): SEQ while BUSY; else the test of READY and the write of EXECUTE in one step (20_memory.md R56). -/
def execDspStep (s : State) : Host.Outcome State Fault Refusal :=
  .next (if s.busy then s.raiseCmdError .seq
    else if s.stAt s.cur.toNat = some .ready then s.runVisit
    else s.idleVisit)

/-- The end of a handler (R94): STANDBY whatever ST[c] is now, BUSY cleared, CUR moved on. -/
def State.endHandler (s : State) : State :=
  ({ s.setSt s.cur.toNat .standby with busy := false, cur := s.nextCur }).respond true (visitWord false s.wraps s.cur)

/-- DSP_DONE (R94): SEQ while not BUSY. -/
def execDspDone (s : State) : Host.Outcome State Fault Refusal :=
  .next (if s.busy then s.endHandler else s.raiseCmdError .seq)

/-- DSP_RDSTAT (R97). -/
def execDspRdstat (s : State) : Host.Outcome State Fault Refusal :=
  .next (s.respond true (dispatcherWord s.busy s.cur))

end Sys2Proof.Machine
end

