-- ==== Sys2Proof/Machine/Formatter.lean ====
section
/-! DEFINITION. The formatter commands (43_formatter.md). -/

namespace Sys2Proof.Machine

/-- The character code of a decimal digit: 0x30 + d, the ASCII table's (R116, I1; UNVERIFIED, log 15). -/
def digitChar (d : Nat) : Octet := BitVec.ofNat 8 (0x30 + d)

/-- The text "NN.0" of a value at most 99 (R115): tens digit in character 0, units in 1, '.' in 2, and the constant '0' in
3 (R118). -/
def fmtText (v : Nat) : Word := 0x30#8 ++ 0x2E#8 ++ digitChar (v % 10) ++ digitChar (v / 10)

/-- Formatting a value (R115, R119): RANGE above 99, with FBUF kept (R122); else FBUF and the response hold the text. -/
def State.format (s : State) (v : Nat) : State :=
  if 99 < v then s.raiseCmdError .range
  else { s with fbuf := fmtText v }.respond true (fmtText v)

/-- FMT_VAL value (R115). -/
def execFmtVal (value : Half) (s : State) : Host.Outcome State Fault Refusal :=
  .next (s.format value.toNat)

/-- FMT_AVG (R119): the value RB_AVG would return now, in the same step. -/
def execFmtAvg (s : State) : Host.Outcome State Fault Refusal :=
  .next (s.format s.average)

/-- FMT_RDBUF (R121). -/
def execFmtRdbuf (s : State) : Host.Outcome State Fault Refusal :=
  .next (s.respond true s.fbuf)

end Sys2Proof.Machine
end

