-- ==== Sys2Proof/Machine/RingBuffer.lean ====
section
/-! DEFINITION. The ring-buffer commands (42_ringbuffer.md). -/

namespace Sys2Proof.Machine

/-- RB_CLEAR (R102): the slots keep their contents, now outside the window. -/
def execRbClear (s : State) : Host.Outcome State Fault Refusal :=
  .next ({ s with cnt := 0#8, wix := 0#8 }.respond true 0#32)

/-- The state change of RB_PUSH (R103): SLOT[WIX], WIX and CNT together (20_memory.md R58), CNT saturating at CAP. -/
def State.push (s : State) (value : Half) : State :=
  { s with
    slot := s.slot.set s.wix.toNat value
    wix := BitVec.ofNat 8 ((s.wix.toNat + 1) % s.cap)
    cnt := if s.cnt.toNat < s.cap then BitVec.ofNat 8 (s.cnt.toNat + 1) else s.cnt }

/-- RB_PUSH value (R103): any 16-bit value (R113). -/
def execRbPush (value : Half) (s : State) : Host.Outcome State Fault Refusal :=
  .next ((s.push value).respond true 0#32)

/-- RB_AVG (R105). -/
def execRbAvg (s : State) : Host.Outcome State Fault Refusal :=
  .next (s.respond true (BitVec.ofNat 32 s.average))

/-- RB_LAST (R108): the most recent push, 0 when the window is empty. -/
def execRbLast (s : State) : Host.Outcome State Fault Refusal :=
  .next (s.respond true (halfWord (if s.cnt = 0#8 then 0#16 else s.pushedAgo 1)))

/-- RB_STAT (R110). -/
def execRbStat (s : State) : Host.Outcome State Fault Refusal :=
  .next (s.respond true (ringWord s.cnt s.wix))

end Sys2Proof.Machine
end

