-- ==== Sys2Proof/Machine/Scheduler.lean ====
section
/-! DEFINITION. The scheduler table commands (40_scheduler.md). -/

namespace Sys2Proof.Machine

/-- A descriptor after SCH_INIT: STANDBY, EL = 0, PER kept (R75). -/
def Descr.init (d : Descr) : Descr := { d with st := .standby, el := 0#16 }

/-- SCH_INIT (R75): every ST and EL; CUR, BUSY, PER and STATUS are kept, also while BUSY = 1 (R76). -/
def execSchInit (s : State) : Host.Outcome State Fault Refusal :=
  .next ({ s with table := s.table.map Descr.init }.respond true 0#32)

/-- SCH_SETPER idx, period (R80): BADIDX before BADPER (R133), else PER[IDX] <- IMM. -/
def execSchSetper (idx : Octet) (period : Half) (s : State) : Host.Outcome State Fault Refusal :=
  .next (s.withDescr idx fun _ =>
    if period = 0#16 then s.raiseCmdError .badPer
    else (s.setPer idx.toNat period).respond true 0#32)

/-- SCH_TICK on the command port (R77): the effect of a TICK_IN pulse (R64, R74), and a response. -/
def execSchTick (s : State) : Host.Outcome State Fault Refusal :=
  .next (s.tickAll.respond true 0#32)

/-- SCH_RDDESC idx (R84): ST and EL of one instant (R85). -/
def execSchRddesc (idx : Octet) (s : State) : Host.Outcome State Fault Refusal :=
  .next (s.withDescr idx fun d => s.respond true (descrWord d))

/-- SCH_RDPER idx (R86). -/
def execSchRdper (idx : Octet) (s : State) : Host.Outcome State Fault Refusal :=
  .next (s.withDescr idx fun d => s.respond true (halfWord d.per))

/-- SCH_RDREADY (R88). -/
def execSchRdready (s : State) : Host.Outcome State Fault Refusal :=
  .next (s.respond true (readyMask s.table))

end Sys2Proof.Machine
end

