-- ==== Sys2Proof/Machine/Dispatch.lean ====
section
/-! DEFINITION. One arm per command: each calls its meaning. -/

namespace Sys2Proof.Machine

def exec (i : Instr) (s : State) : Host.Outcome State Fault Refusal :=
  match i with
  | .schInit => Sys2Proof.Machine.execSchInit s
  | .schSetper idx period => Sys2Proof.Machine.execSchSetper idx period s
  | .schTick => Sys2Proof.Machine.execSchTick s
  | .schRddesc idx => Sys2Proof.Machine.execSchRddesc idx s
  | .schRdper idx => Sys2Proof.Machine.execSchRdper idx s
  | .schRdready => Sys2Proof.Machine.execSchRdready s
  | .dspStep => Sys2Proof.Machine.execDspStep s
  | .dspDone => Sys2Proof.Machine.execDspDone s
  | .dspRdstat => Sys2Proof.Machine.execDspRdstat s
  | .rbClear => Sys2Proof.Machine.execRbClear s
  | .rbPush value => Sys2Proof.Machine.execRbPush value s
  | .rbAvg => Sys2Proof.Machine.execRbAvg s
  | .rbLast => Sys2Proof.Machine.execRbLast s
  | .rbStat => Sys2Proof.Machine.execRbStat s
  | .fmtVal value => Sys2Proof.Machine.execFmtVal value s
  | .fmtAvg => Sys2Proof.Machine.execFmtAvg s
  | .fmtRdbuf => Sys2Proof.Machine.execFmtRdbuf s
  | .ctlRdstatus => Sys2Proof.Machine.execCtlRdstatus s
  | .ctlClrerr => Sys2Proof.Machine.execCtlClrerr s

end Sys2Proof.Machine
end

