-- ==== Sys2Proof/Machine/Serve.lean ====
section
/-! DEFINITION. One operation of the total order, applied to the block (00_scope.md R14). -/

namespace Sys2Proof.Machine

/-- A word that decodes to ILL is refused with code 1, whatever the reason (30_encoding.md R63, R67). -/
def serveIllegal (_ : IllegalWord) (s : State) : Host.Outcome State Fault Refusal :=
  .next (s.raiseCmdError .ill)

/-- A TICK_IN pulse (R64, R77): the effect of SCH_TICK, with no response, and never refused (R129). -/
def serveTick (s : State) : Host.Outcome State Fault Refusal :=
  .next s.tickAll

/-- A command word: decoded first (R133), then executed. -/
def serveCommand (w : Word) (s : State) : Host.Outcome State Fault Refusal :=
  match decode w with
  | .ok i => exec i s
  | .error e => serveIllegal e s

/-- One operation of either agent, as one atomic step (R14, 20_memory.md R49). -/
def serve (op : Op) (s : State) : Host.Outcome State Fault Refusal :=
  match op with
  | .tickIn => serveTick s
  | .command w => serveCommand w s

/-- No agent drives the block: nothing changes (60_exceptions.md R148: it has no wait state, and "all of its state survives
as long as it is powered"; DESIGN CHOICE, log 5). -/
def serveNothing (s : State) : Host.Outcome State Fault Refusal := .next s

end Sys2Proof.Machine
end

