-- ==== Sys2Proof/Machine/Step.lean ====
section
/-! DEFINITION. One step of the machine: the next operation of the total order (00_scope.md R14, R17). -/

namespace Sys2Proof.Machine

/-- E2CORE fetches no instructions (10_state.md R20): a step takes the next operation from the outside and applies it. -/
def step (s : State) : Host.Outcome State Fault Refusal :=
  match s.takeOp with
  | none => serveNothing s
  | some (op, rest) => serve op rest

/-- The state in which the HOST's next command is the word whose low `nbits` bits are `w`'s: the command stands first in
the operations to come, and nothing else changes (log 7). -/
def State.withFetchWord (s : State) (nbits w : Nat) : State := s.offerCommand (tableWord nbits w)

end Sys2Proof.Machine
end

