-- ==== Sys2Proof/Machine/Assembler.lean ====
section
/-! DEFINITION. The assembler's lines and the pseudo-commands (30_encoding.md R70, R71): what operations of the two agents
a program line stands for. Not part of the block (D36). -/

namespace Sys2Proof.Machine

/-- Why an assembler refuses a line (R70). -/
inductive AsmError where
  /-- No mnemonic of R65, event or pseudo-command has this name. -/
  | unknownMnemonic
  /-- The operands are not those of the mnemonic's operand form. -/
  | wrongOperands
  /-- An operand does not fit its field: idx > 255 or value > 65535. -/
  | operandTooLarge
  /-- A token in an operand's place is not a number. -/
  | notANumber
  deriving DecidableEq, Repr

/-- A program line (R70, R71). -/
inductive AsmLine where
  /-- A mnemonic of R65 and its operands. -/
  | command (mnemonic : String) (operands : List Nat)
  /-- The event line `TICK`, or `TICK ×n`: n pulses on TICK_IN. -/
  | tick (n : Nat)
  /-- The pseudo-command NOP. -/
  | nop
  /-- The pseudo-command SCH_CONFIG p0, p1, ..., pK. -/
  | config (periods : List Nat)
  /-- A comment, or nothing. -/
  | empty
  deriving DecidableEq, Repr

/-- The operands fit their fields (R70). -/
def operandsFit (idx value : Nat) : Bool := decide (idx ≤ 255) && decide (value ≤ 65535)

/-- The command word of OP, index and value, refused when an operand does not fit its field (R70). -/
def packCommand (op : Octet) (idx value : Nat) : Except AsmError Word :=
  if operandsFit idx value then .ok (c32 op (BitVec.ofNat 8 idx) (BitVec.ofNat 16 value))
  else .error .operandTooLarge

/-- The command word of a mnemonic and its operands, by the operand form of its row (R70). A run-time cause of refusal
(idx ≥ NTASK, period = 0, a formatter value above 99) is not looked at. -/
def assembleCommand (mnemonic : String) (operands : List Nat) : Except AsmError Word :=
  match rows.find? (fun r => r.mnemonic == mnemonic) with
  | none => .error .unknownMnemonic
  | some r =>
    match r.usesIdx, r.usesImm, operands with
    | true, true, [idx, value] => packCommand r.op idx value
    | true, false, [idx] => packCommand r.op idx 0
    | false, true, [value] => packCommand r.op 0 value
    | false, false, [] => packCommand r.op 0 0
    | _, _, _ => .error .wrongOperands

/-- `SCH_SETPER i, p` for each period from index `i` on (R71). -/
def setperOps : Nat → List Nat → Except AsmError (List Op)
  | _, [] => .ok []
  | i, p :: ps =>
    match packCommand 0x11#8 i p, setperOps (i + 1) ps with
    | .ok w, .ok ops => .ok (.command w :: ops)
    | .error e, _ => .error e
    | _, .error e => .error e

/-- `SCH_CONFIG p0, ..., pK` with K = NTASK - 1 (R71): every SCH_SETPER, then SCH_INIT. -/
def configOps (nTask : Nat) (periods : List Nat) : Except AsmError (List Op) :=
  if periods.length = nTask then
    match setperOps 0 periods with
    | .ok ops => .ok (ops ++ [.command (encode .schInit)])
    | .error e => .error e
  else .error .wrongOperands

/-- The operations a line stands for (R70, R71), on a block with `nTask` descriptors. -/
def assembleLine (nTask : Nat) : AsmLine → Except AsmError (List Op)
  | .command mnemonic operands =>
    match assembleCommand mnemonic operands with
    | .ok w => .ok [.command w]
    | .error e => .error e
  | .tick n => .ok (List.replicate n .tickIn)
  | .nop => .ok [.command (encode .ctlRdstatus)]
  | .config periods => configOps nTask periods
  | .empty => .ok []

/-! ### Reading a line's text -/

/-- A line's tokens (log 17): white space separates them, a comma is one by itself. `cur` is the token being read, last
character first. -/
def lineTokens : List Char → List Char → List (List Char)
  | [], cur => if cur.isEmpty then [] else [cur.reverse]
  | c :: cs, cur =>
    let done := if cur.isEmpty then [] else [cur.reverse]
    if c = ' ' ∨ c = '\t' then done ++ lineTokens cs []
    else if c = ',' then done ++ [[',']] ++ lineTokens cs []
    else lineTokens cs (c :: cur)

/-- A hexadecimal digit's value, in either case (log 17). -/
def hexDigit (c : Char) : Option Nat :=
  if '0' ≤ c ∧ c ≤ '9' then some (c.toNat - 48)
  else if 'A' ≤ c ∧ c ≤ 'F' then some (c.toNat - 55)
  else if 'a' ≤ c ∧ c ≤ 'f' then some (c.toNat - 87)
  else none

/-- A decimal digit's value. -/
def decDigit (c : Char) : Option Nat := if '0' ≤ c ∧ c ≤ '9' then some (c.toNat - 48) else none

/-- The digits of a number in a base, most significant first, after those already read into `acc`. -/
def readDigits (base : Nat) (digit : Char → Option Nat) : Nat → List Char → Option Nat
  | acc, [] => some acc
  | acc, c :: cs =>
    match digit c with
    | some d => readDigits base digit (acc * base + d) cs
    | none => none

/-- A number: decimal, or hexadecimal with the 0x prefix (R70). -/
def readNumber : List Char → Except AsmError Nat
  | [] => .error .notANumber
  | ['0', 'x'] => .error .notANumber
  | '0' :: 'x' :: ds =>
    match readDigits 16 hexDigit 0 ds with
    | some n => .ok n
    | none => .error .notANumber
  | ds =>
    match readDigits 10 decDigit 0 ds with
    | some n => .ok n
    | none => .error .notANumber

/-- A list of operands, separated by commas (R70). -/
def readOperands : List (List Char) → Except AsmError (List Nat)
  | [] => .ok []
  | [t] =>
    match readNumber t with
    | .ok n => .ok [n]
    | .error e => .error e
  | t :: [','] :: u :: rest =>
    match readNumber t, readOperands (u :: rest) with
    | .ok n, .ok ns => .ok (n :: ns)
    | .error e, _ => .error e
    | _, .error e => .error e
  | _ => .error .wrongOperands

/-- The line a list of tokens is (R70, R71). -/
def lineOf : List (List Char) → Except AsmError AsmLine
  | [] => .ok .empty
  | name :: rest =>
    if name = ['T', 'I', 'C', 'K'] then
      match rest with
      | [] => .ok (.tick 1)
      | [('×' :: ds)] =>
        match readNumber ds with
        | .ok n => .ok (.tick n)
        | .error e => .error e
      | _ => .error .wrongOperands
    else if name = ['N', 'O', 'P'] then
      if rest.isEmpty then .ok .nop else .error .wrongOperands
    else
      match readOperands rest with
      | .ok ns =>
        if String.ofList name = "SCH_CONFIG" then .ok (.config ns)
        else .ok (.command (String.ofList name) ns)
      | .error e => .error e

/-- The line a text is: a comment runs from `;` to the end (R70). -/
def readLine (text : String) : Except AsmError AsmLine :=
  lineOf (lineTokens (text.toList.takeWhile (fun c => c != ';')) [])

/-- The operations a program's lines stand for, in order; refused when any line is. -/
def assemble (nTask : Nat) : List String → Except AsmError (List Op)
  | [] => .ok []
  | line :: lines =>
    match readLine line with
    | .error e => .error e
    | .ok l =>
      match assembleLine nTask l, assemble nTask lines with
      | .ok now, .ok later => .ok (now ++ later)
      | .error e, _ => .error e
      | _, .error e => .error e

end Sys2Proof.Machine
end

