-- ==== Sys2Proof/Safety.lean ====
section
/-! DEFINITION. What claims about E2CORE are stated in: the invariant of every reachable state, what an operation leaves
unchanged, runs of operations, and what a list of operations asks for. -/

namespace Sys2Proof.Machine

/-! ### The invariant (10_state.md section 10) -/

/-- STATUS as R33 says it reads: the reserved bits 7:5 and 31:11 are 0, and LASTERR is 0 with no sticky bit set, or the
code of a refusal whose sticky bit is set. -/
def StatusLegal (status : Word) : Prop :=
  status &&& 0xFFFFF8E0#32 = 0#32 ∧
    (status = 0#32 ∨ ∃ e : CmdError, lastErr status = BitVec.ofNat 3 e.code ∧ status.getLsbD e.stickyBit = true)

/-- FBUF as R32 and R121 say it reads: 0 before the first successful format, else the text of a value at most 99. -/
def FbufLegal (fbuf : Word) : Prop := fbuf = 0#32 ∨ ∃ v, v ≤ 99 ∧ fbuf = fmtText v

/-- What the rules say of every state a run reaches. -/
structure State.Inv (s : State) : Prop where
  /-- NTASK is in [1, 32] (R7). -/
  nTask_range : 1 ≤ s.nTask ∧ s.nTask ≤ 32
  /-- CAP is in [1, 255] (R7). -/
  cap_range : 1 ≤ s.cap ∧ s.cap ≤ 255
  /-- PER[i] is in [1, 65535] (R24). -/
  per_pos : ∀ d ∈ s.table, d.per ≠ 0#16
  /-- EL[i] ≤ 65534 (R39). -/
  el_le : ∀ d ∈ s.table, d.el.toNat ≤ 65534
  /-- CUR is in [0, NTASK) (R26). -/
  cur_lt : s.cur.toNat < s.nTask
  /-- EXECUTE only while BUSY, and only at CUR (R37, R100). -/
  execute_only : ∀ i, s.stAt i = some .execute → s.busy = true ∧ i = s.cur.toNat
  /-- WIX is in [0, CAP) (R29). -/
  wix_lt : s.wix.toNat < s.cap
  /-- CNT is in [0, CAP] (R30). -/
  cnt_le : s.cnt.toNat ≤ s.cap
  /-- CNT < CAP implies WIX = CNT (R38). -/
  partial_window : s.cnt.toNat < s.cap → s.wix = s.cnt
  /-- STATUS reads as R33 says. -/
  status_legal : StatusLegal s.status
  /-- FBUF reads as R32 and R121 say. -/
  fbuf_legal : FbufLegal s.fbuf

/-! ### Frames: what an operation from `s` to `t` leaves unchanged -/

/-- Every ST, EL and PER. -/
def SameTable (s t : State) : Prop := t.table = s.table

/-- CUR and BUSY. -/
def SameDispatcher (s t : State) : Prop := t.cur = s.cur ∧ t.busy = s.busy

/-- Every SLOT, WIX and CNT. -/
def SameRing (s t : State) : Prop := t.slot = s.slot ∧ t.wix = s.wix ∧ t.cnt = s.cnt

/-- FBUF. -/
def SameFbuf (s t : State) : Prop := t.fbuf = s.fbuf

/-- STATUS. -/
def SameStatus (s t : State) : Prop := t.status = s.status

/-- The operations still to come. -/
def SameInputs (s t : State) : Prop := t.inputs = s.inputs

/-- Exactly one response, (ok, w), was given. -/
def Answers (s t : State) (ok : Bool) (w : Word) : Prop :=
  t.responses = { ok := ok, word := w } :: s.responses

/-- The command answered (1, w) and changed no state element (20_memory.md R50). -/
def OnlyAnswers (s t : State) (w : Word) : Prop :=
  SameTable s t ∧ SameDispatcher s t ∧ SameRing s t ∧ SameFbuf s t ∧ SameStatus s t ∧ SameInputs s t ∧
    Answers s t true w

/-- The command was refused with cause `e`: it answered (0, code), STATUS took the refusal, nothing else changed
(60_exceptions.md R130, R131). -/
def RefusedWith (s t : State) (e : CmdError) : Prop :=
  SameTable s t ∧ SameDispatcher s t ∧ SameRing s t ∧ SameFbuf s t ∧ SameInputs s t ∧
    t.status = statusAfter e s.status ∧ Answers s t false (BitVec.ofNat 32 e.code)

/-! ### Runs -/

/-- The operations of a list applied in order (00_scope.md R14, R17). -/
def runOps : List Op → State → Host.Outcome State Fault Refusal
  | [], s => .next s
  | op :: ops, s =>
    match serve op s with
    | .next t => runOps ops t
    | .fault r => .fault r
    | .refused r => .refused r

/-- The command an operation is, when it is a legal command word. -/
def Op.instr (op : Op) : Option Instr :=
  match op with
  | .tickIn => none
  | .command w =>
    match decode w with
    | .ok i => some i
    | .error _ => none

/-- The operation is one SCH_TICK: a pulse, or the command on the port (30_encoding.md R64). -/
def Op.isTick (op : Op) : Bool := op == .tickIn || op.instr == some .schTick

/-- The ticks a list of operations applies. -/
def ticksIn (ops : List Op) : Nat := ops.countP Op.isTick

/-- The values a list of operations pushes, after those of `acc`, newest first. -/
def pushesAfter : List Op → List Half → List Half
  | [], acc => acc
  | op :: ops, acc =>
    match op.instr with
    | some (.rbPush v) => pushesAfter ops (v :: acc)
    | _ => pushesAfter ops acc

/-- The values a list of operations pushes, newest first. -/
def pushesIn (ops : List Op) : List Half := pushesAfter ops []

/-- The operation writes PER[i] or restarts the counters: SCH_INIT, or SCH_SETPER of descriptor i. -/
def Op.disturbs (i : Nat) (op : Op) : Bool :=
  match op.instr with
  | some .schInit => true
  | some (.schSetper idx _) => idx.toNat == i
  | _ => false

/-- The index a DSP_STEP visited, read from its response: the newest response in `t`, when the operation is a DSP_STEP
and was not refused (41_dispatcher.md R91). -/
def visitedIndex (op : Op) (t : State) : Option Nat :=
  if op.instr = some .dspStep then
    match t.responses with
    | r :: _ => if r.ok then some (r.word.extractLsb' 0 8).toNat else none
    | [] => none
  else none

/-- The indices the successful DSP_STEPs of a run visit, in order (R93). -/
def visits : List Op → State → List Nat
  | [], _ => []
  | op :: ops, s =>
    match serve op s with
    | .next t => (visitedIndex op t).toList ++ visits ops t
    | .fault _ => []
    | .refused _ => []

/-- The operation is a format command that was not refused: the newest response in `t` says so (43_formatter.md). -/
def formatted (op : Op) (t : State) : Bool :=
  match op.instr with
  | some (.fmtVal _) => t.responses.head?.any Response.ok
  | some .fmtAvg => t.responses.head?.any Response.ok
  | _ => false

/-- How many successful formats a run holds. -/
def formats : List Op → State → Nat
  | [], _ => 0
  | op :: ops, s =>
    match serve op s with
    | .next t => (formatted op t).toNat + formats ops t
    | .fault _ => 0
    | .refused _ => 0

/-- Two states that differ at most in the slots outside the read window (10_state.md R42). -/
def SameButHiddenSlots (s t : State) : Prop :=
  t = { s with slot := t.slot } ∧ t.slot.length = s.slot.length ∧ t.window = s.window

/-- Two states with the same counters and periods: EL and PER of every descriptor, whatever ST is (40_scheduler.md R83). -/
def SameCounters (s t : State) : Prop :=
  t.table.map (fun d => (d.el, d.per)) = s.table.map (fun d => (d.el, d.per))

/-- The commands that only read (20_memory.md R50). -/
def ReadsOnly (i : Instr) : Prop :=
  i ∈ [.schRdready, .dspRdstat, .rbAvg, .rbLast, .rbStat, .fmtRdbuf, .ctlRdstatus] ∨
    ∃ idx, i = .schRddesc idx ∨ i = .schRdper idx

/-- The sum of the CNT most recent pushes, slot by slot as R105 gives them: k = j + 1 for j = 0 .. CNT-1. -/
def windowSum (s : State) : Nat :=
  ((List.range s.cnt.toNat).map
    (fun j => ((s.slotAt ((s.wix.toNat + s.cap - (j + 1)) % s.cap)).getD 0#16).toNat)).sum

/-- The floor of the mean of a list of values, 0 for none (42_ringbuffer.md R105, R107). -/
def floorMean (values : List Half) : Nat := (values.map BitVec.toNat).sum / values.length

/-- The cause of a refusal of the word `w` in the state `s`, by code (60_exceptions.md R132), each cause after those
checked before it (R133). -/
def RefusalCause (e : CmdError) (w : Word) (s : State) : Prop :=
  match e with
  | .ill => ∃ r, decode w = .error r
  | .badIdx => ∃ idx : Octet, s.nTask ≤ idx.toNat ∧
      ((∃ period, decode w = .ok (.schSetper idx period)) ∨ decode w = .ok (.schRddesc idx) ∨
        decode w = .ok (.schRdper idx))
  | .badPer => ∃ idx : Octet, idx.toNat < s.nTask ∧ decode w = .ok (.schSetper idx 0#16)
  | .seq => (decode w = .ok .dspStep ∧ s.busy = true) ∨ (decode w = .ok .dspDone ∧ s.busy = false)
  | .range => (∃ value : Half, 99 < value.toNat ∧ decode w = .ok (.fmtVal value)) ∨
      (decode w = .ok .fmtAvg ∧ 99 < s.average)

end Sys2Proof.Machine
end

