-- ==== Sys2Proof/WellFormed.lean ====
section
/-! DEFINITION. What must be checked before a term means something on E2CORE.

A command needs no check of its own: the operand types of `Instr` are exactly the fields of format C32 (30_encoding.md
R61 to R63), and a field's value is judged by the block at run time (R70: an assembler "does not refuse idx ≥ NTASK,
period = 0 or a formatter value > 99; the block refuses those at run time"). What can be ill-formed is the set of
parameters (R7), checked here, and an assembler line's operands (R70), checked in Machine/Assembler.lean. -/

namespace Sys2Proof

/-- NTASK is an integer in [1, 32] (R7). -/
def Params.nTaskOk (p : Params) : Bool := decide (1 ≤ p.nTask) && decide (p.nTask ≤ 32)

/-- CAP is an integer in [1, 255] (R7). -/
def Params.capOk (p : Params) : Bool := decide (1 ≤ p.cap) && decide (p.cap ≤ 255)

/-- Each PERIOD_INIT[i] is in [1, 65535] (R7): as a 16-bit value, not 0. -/
def Params.periodsOk (p : Params) : Bool := p.periodInit.all (fun x => x != 0#16)

/-- The parameters lie in the ranges of R7. -/
def Params.wf (p : Params) : Bool := p.nTaskOk && p.capOk && p.periodsOk

end Sys2Proof
end

