-- ==== Sys2Proof/Certificates/Slice0/Obligations.lean ====
section
/-! DEFINITION. The statements for the provers: what E2CORE's rules say, of this model. A docstring names the rule a
statement formalises, or says that it is derived (by the rule itself, `derived there`, or by this model) or the model's
choice. -/

open Sys2Proof Sys2Proof.Machine

/-! ### Command words -/

/-- No bit of an encoding is dropped: decoding a command's word gives the command back (derived from R61 to R66). -/
def Obligations.DecodeEncodeRoundTrip : Prop := ∀ i : Instr, decode (encode i) = .ok i

/-- A legal word has one meaning and no don't-care bit: it is the encoding of the command it decodes to (derived from R61,
R63, R65). -/
def Obligations.DecodedWordIsItsEncoding : Prop := ∀ (w : Word) (i : Instr), decode w = .ok i → encode i = w

/-- Derived from R65 and R66: a word decodes to a command exactly when a row matches it, the command is
that row's, and no other row matches. -/
def Obligations.LegalWordsMatchExactlyOneRow : Prop :=
  ∀ w : Word,
    ((∃ i, decode w = .ok i) ↔ ∃ r ∈ rows, w &&& r.mask = r.pattern) ∧
    ∀ r ∈ rows, w &&& r.mask = r.pattern →
      decode w = .ok (r.build (idxField w) (immField w)) ∧
      ∀ q ∈ rows, w &&& q.mask = q.pattern → q.mnemonic = r.mnemonic

/-- R67 (and R63): the illegal words are those whose OP is none of the 19 of the opcode map and those whose unused IDX or
IMM field is not zero, each refused with code 1; every other word is a command. -/
def Obligations.IllegalWordsAreRefusedWithCode1 : Prop :=
  ∀ (w : Word) (s : State),
    let ops : List Octet := [0x10#8, 0x11#8, 0x12#8, 0x13#8, 0x14#8, 0x15#8, 0x20#8, 0x21#8, 0x22#8, 0x30#8, 0x31#8, 0x32#8,
      0x33#8, 0x34#8, 0x40#8, 0x41#8, 0x42#8, 0xF0#8, 0xF1#8]
    let illegal := opField w ∉ ops ∨
      (idxField w ≠ 0#8 ∧ opField w ∉ ([0x11#8, 0x13#8, 0x14#8] : List Octet)) ∨
      (immField w ≠ 0#16 ∧ opField w ∉ ([0x11#8, 0x31#8, 0x40#8] : List Octet))
    (illegal → ∃ t, serveCommand w s = .next t ∧ RefusedWith s t .ill) ∧
    (¬ illegal → ∃ i, decode w = .ok i ∧ serveCommand w s = exec i s)

/-- R72 (derived there from R61, R63, R65): the nine encoding examples. -/
def Obligations.SpecExampleWordsDecode : Prop :=
  decode 0x10000000#32 = .ok .schInit ∧
  decode 0x1102000A#32 = .ok (.schSetper 2 10) ∧
  decode 0x13010000#32 = .ok (.schRddesc 1) ∧
  decode 0x3100001E#32 = .ok (.rbPush 30) ∧
  decode 0x40000017#32 = .ok (.fmtVal 23) ∧
  decode 0x20000000#32 = .ok .dspStep ∧
  decode 0x10000001#32 = .error .nonzeroUnusedField ∧
  decode 0x31010000#32 = .error .nonzeroUnusedField ∧
  decode 0x00000000#32 = .error .undefinedOp

/-! ### Steps, operations and responses -/

/-- When the next operation is a word that decodes to a command, a step is that command on the rest (derived from R14,
R66). -/
def Obligations.StepRunsTheDecodedCommand : Prop :=
  ∀ (s : State) (w : Word) (rest : List Op) (i : Instr),
    s.inputs = .command w :: rest → decode w = .ok i → step s = exec i { s with inputs := rest }

/-- R64: a TICK_IN pulse is the command 0x12000000 with its response discarded, and that command on the port has the same
effect. -/
def Obligations.TickPulseIsSchTickWithoutItsResponse : Prop :=
  ∀ (s : State) (rest : List Op), ∃ u,
    exec .schTick { s with inputs := rest } = .next u ∧
    (s.inputs = .tickIn :: rest → step s = .next { u with responses := s.responses }) ∧
    (s.inputs = .command 0x12000000#32 :: rest → step s = .next u)

/-- The model's way in (derived, log 7): offering a command's word makes the next step that command, on the same state. -/
def Obligations.StepRunsTheOfferedWord : Prop :=
  ∀ (s : State) (i : Instr), step (s.withFetchWord 32 (encode i).toNat) = exec i s

/-- R149's "every operation has a step in every state", and a step when no operation is to come (the model's choice,
log 5: nothing changes). -/
def Obligations.EveryOperationHasAStep : Prop :=
  ∀ s : State, (∀ op, ∃ t, serve op s = .next t) ∧ (∃ t, step s = .next t) ∧ (s.inputs = [] → step s = .next s)

/-- Derived from R14 and R54: steps apply the operations to come one after the other, in their order and none twice,
whatever interleaving of the two agents the list is. -/
def Obligations.RunServesTheInputsInOrder : Prop :=
  ∀ s : State,
    (Host.Core.run Sys2Proof.core s.inputs.length s : Host.Outcome State Fault Refusal) =
      runOps s.inputs { s with inputs := [] }

/-- Derived from R18, R69 and R150: one response for each command, none for a pulse, and no operation touches the
operations still to come. -/
def Obligations.OneResponsePerCommandNoneForAPulse : Prop :=
  ∀ s : State,
    (∃ t, serve .tickIn s = .next t ∧ t.responses = s.responses ∧ SameInputs s t) ∧
    ∀ w, ∃ t ok v, serve (.command w) s = .next t ∧ Answers s t ok v ∧ SameInputs s t

/-! ### Refusals -/

/-- R131: what `raise CmdError(code)` writes and answers, and what it leaves alone. -/
def Obligations.RefusalWritesStatusAndAnswersTheCode : Prop :=
  ∀ (e : CmdError) (s : State),
    let t := s.raiseCmdError e
    1 ≤ e.code ∧ e.code ≤ 5 ∧
    t.status.getLsbD (e.code - 1) = true ∧
    t.status.extractLsb' 8 3 = BitVec.ofNat 3 e.code ∧
    (∀ b, b ≠ e.code - 1 → b < 8 ∨ 10 < b → t.status.getLsbD b = s.status.getLsbD b) ∧
    Answers s t false (BitVec.ofNat 32 e.code) ∧
    SameTable s t ∧ SameDispatcher s t ∧ SameRing s t ∧ SameFbuf s t ∧ SameInputs s t

/-- R132 with the order of R133: the codes, the STATUS bits, and that a word is refused with a code exactly when that
code's cause holds. -/
def Obligations.EachRefusalHasItsOneCause : Prop :=
  [CmdError.ill, .badIdx, .badPer, .seq, .range].map (fun e => (e.code, e.stickyBit)) =
    [(1, 0), (2, 1), (3, 2), (4, 3), (5, 4)] ∧
  ∀ (e : CmdError) (w : Word) (s : State),
    serveCommand w s = .next (s.raiseCmdError e) ↔ RefusalCause e w s

/-- Derived from R130: a refused command (one that answers ok = 0) changes STATUS as R131 says and nothing else. -/
def Obligations.RefusalsArePrecise : Prop :=
  ∀ (w v : Word) (s t : State), serveCommand w s = .next t → Answers s t false v → ∃ e, RefusedWith s t e

/-- R134 (derived there from the commands' rules): the commands that are never refused once decoded. -/
def Obligations.SomeCommandsAreNeverRefused : Prop :=
  ∀ (i : Instr) (s : State),
    (i ∈ [.schInit, .schTick, .schRdready, .dspRdstat, .rbClear, .rbAvg, .rbLast, .rbStat, .fmtRdbuf, .ctlRdstatus,
      .ctlClrerr] ∨ ∃ v, i = .rbPush v) →
    ∃ t w, exec i s = .next t ∧ Answers s t true w

/-- R125: an error bit once set stays set until CTL_CLRERR or reset, and an operation that is not refused and is not
CTL_CLRERR does not write STATUS. -/
def Obligations.ErrorBitsAreSticky : Prop :=
  (∀ (op : Op) (s : State), op.instr ≠ some .ctlClrerr →
    ∃ t, serve op s = .next t ∧
      (∀ b, b < 5 → s.status.getLsbD b = true → t.status.getLsbD b = true) ∧
      ((∀ v, ¬ Answers s t false v) → SameStatus s t)) ∧
  (∀ s : State, ∃ t, exec .ctlClrerr s = .next t ∧ t.status = 0#32) ∧
  ∀ p fill, (State.resetOf p fill).status = 0#32

/-! ### Reset and the invariant -/

/-- R40 and R151: the value of every element after reset, for every parameter choice and whatever the unspecified slots
hold (`fill`). -/
def Obligations.ResetGivesEveryElementItsValue : Prop :=
  ∀ (p : Params) (fill : Nat → Half),
    let s := State.resetOf p fill
    s.nTask = p.nTask ∧ s.cap = p.cap ∧
    (∀ i, i < p.nTask → s.stAt i = some .standby ∧ s.elAt i = some 0#16 ∧ s.perAt i = p.periodInit[i]?) ∧
    s.cur = 0#8 ∧ s.busy = false ∧ s.wix = 0#8 ∧ s.cnt = 0#8 ∧ s.fbuf = 0#32 ∧ s.status = 0#32 ∧
    (∀ j, j < p.cap → s.slotAt j = some (fill j)) ∧ s.inputs = []

/-- Every reset state with parameters in R7's ranges meets the invariant (derived), the one `core` starts from too (its
parameters are the model's choice, log 2, and its slots, log 3). -/
def Obligations.ResetMeetsTheInvariant : Prop :=
  (∀ (p : Params) (fill : Nat → Half), p.wf = true → (State.resetOf p fill).Inv) ∧ State.reset.Inv

/-- Every step keeps the invariant: R22, R24, R26, R29, R30, R33, R37, R38, R39 and R100 hold of every state any run
reaches (derived). NTASK and CAP never change (R21, R28). -/
def Obligations.StepKeepsTheInvariant : Prop :=
  ∀ s : State, s.Inv → ∃ t, step s = .next t ∧ t.Inv ∧ t.nTask = s.nTask ∧ t.cap = s.cap

/-- R152 (derived there from R151, R75, R80, R102): reset is the effect of SCH_INIT, RB_CLEAR and SCH_SETPER i, PERIOD_INIT[i] for every i, plus the reset of CUR,
BUSY, FBUF and STATUS (the slots keep their contents, the responses and operations of the run aside). -/
def Obligations.ResetEqualsTheInitialisers : Prop :=
  ∀ (p : Params) (s : State), p.wf = true → s.nTask = p.nTask → s.cap = p.cap →
    ∃ t,
      runOps ([.command (encode .schInit), .command (encode .rbClear)] ++
        (List.range p.nTask).map
          (fun i => .command (encode (.schSetper (BitVec.ofNat 8 i) (p.periodInit.getD i 0#16))))) s = .next t ∧
      { t with cur := 0#8, busy := false, fbuf := 0#32, status := 0#32, responses := [], inputs := [] } =
        State.resetOf p (fun j => s.slot.getD j 0#16)

/-! ### The scheduler table -/

/-- R75: SCH_INIT, its frame, and that a second one leaves the same state. -/
def Obligations.SchInitResult : Prop :=
  encode .schInit = 0x10000000#32 ∧
  ∀ s : State, ∃ t,
    exec .schInit s = .next t ∧ t.nTask = s.nTask ∧
    (∀ i, i < s.nTask → t.stAt i = some .standby ∧ t.elAt i = some 0#16) ∧
    (∀ i, t.perAt i = s.perAt i) ∧
    SameDispatcher s t ∧ SameRing s t ∧ SameFbuf s t ∧ SameStatus s t ∧ SameInputs s t ∧ Answers s t true 0#32 ∧
    exec .schInit t = .next (t.respond true 0#32)

/-- R76: SCH_INIT under a running handler keeps CUR and BUSY, and the later DSP_DONE succeeds, writes STANDBY again and
moves CUR on. -/
def Obligations.SchInitUnderARunningHandler : Prop :=
  ∀ s : State, s.Inv → s.busy = true → ∃ t u v,
    exec .schInit s = .next t ∧ SameDispatcher s t ∧
    (∀ i, i < s.nTask → t.stAt i = some .standby ∧ t.elAt i = some 0#16) ∧
    exec .dspDone t = .next u ∧ Answers t u true v ∧
    u.stAt s.cur.toNat = some .standby ∧ u.busy = false ∧ u.cur.toNat = (s.cur.toNat + 1) % s.nTask

/-- R77 (with R73 and R78): SCH_TICK, descriptor by descriptor, and its frame; a TICK_IN pulse does the same and answers
nothing. -/
def Obligations.SchTickResult : Prop :=
  encode .schTick = 0x12000000#32 ∧
  ∀ s : State, ∃ t,
    exec .schTick s = .next t ∧ t.nTask = s.nTask ∧
    (∀ i el per, s.elAt i = some el → s.perAt i = some per → per.toNat ≤ el.toNat + 1 →
      t.stAt i = some .ready ∧ t.elAt i = some 0#16) ∧
    (∀ i el per, s.elAt i = some el → s.perAt i = some per → el.toNat + 1 < per.toNat →
      t.stAt i = s.stAt i ∧ ∃ e, t.elAt i = some e ∧ e.toNat = el.toNat + 1) ∧
    (∀ i, t.perAt i = s.perAt i) ∧
    SameDispatcher s t ∧ SameRing s t ∧ SameFbuf s t ∧ SameStatus s t ∧ SameInputs s t ∧ Answers s t true 0#32 ∧
    serve .tickIn s = .next { t with responses := s.responses }

/-- R39 (derived there): EL is at most 65534 at all times, below PER right after a tick, and a descriptor with EL ≥ PER crosses at the next
tick. -/
def Obligations.TickLeavesElapsedBelowPeriod : Prop :=
  ∀ s : State, s.Inv →
    (∀ i el, s.elAt i = some el → el.toNat ≤ 65534) ∧
    ∃ t, serve .tickIn s = .next t ∧
      (∀ i el per, t.elAt i = some el → t.perAt i = some per → el.toNat < per.toNat) ∧
      (∀ i el per, s.elAt i = some el → s.perAt i = some per → per.toNat ≤ el.toNat →
        t.stAt i = some .ready ∧ t.elAt i = some 0#16)

/-- R80: SCH_SETPER, its two refusals in their order (R133), and its frame. -/
def Obligations.SchSetperResult : Prop :=
  ∀ (s : State) (idx : Octet) (period : Half),
    encode (.schSetper idx period) &&& 0xFF000000#32 = 0x11000000#32 ∧
    idxField (encode (.schSetper idx period)) = idx ∧ immField (encode (.schSetper idx period)) = period ∧
    ∃ t, exec (.schSetper idx period) s = .next t ∧
      (s.nTask ≤ idx.toNat → RefusedWith s t .badIdx) ∧
      (idx.toNat < s.nTask → period = 0#16 → RefusedWith s t .badPer) ∧
      (idx.toNat < s.nTask → period ≠ 0#16 →
        t.nTask = s.nTask ∧ t.perAt idx.toNat = some period ∧
        (∀ i, i ≠ idx.toNat → t.perAt i = s.perAt i) ∧
        (∀ i, t.stAt i = s.stAt i ∧ t.elAt i = s.elAt i) ∧
        SameDispatcher s t ∧ SameRing s t ∧ SameFbuf s t ∧ SameStatus s t ∧ SameInputs s t ∧ Answers s t true 0#32)

/-- R81 (derived there): a new period takes effect at the next tick. -/
def Obligations.NewPeriodTakesEffectAtTheNextTick : Prop :=
  ∀ (s : State) (idx : Octet) (period el : Half), period ≠ 0#16 → s.elAt idx.toNat = some el →
    ∃ t u, exec (.schSetper idx period) s = .next t ∧ exec .schTick t = .next u ∧
      (period.toNat ≤ el.toNat + 1 → u.stAt idx.toNat = some .ready ∧ u.elAt idx.toNat = some 0#16) ∧
      (el.toNat + 1 < period.toNat →
        u.stAt idx.toNat = s.stAt idx.toNat ∧ ∃ e, u.elAt idx.toNat = some e ∧ e.toNat = el.toNat + 1)

/-- R84 with the encoding of ST of R22: SCH_RDDESC, the layout of its word, that ST = 3 never appears, and its refusal. -/
def Obligations.SchRddescResult : Prop :=
  TaskState.code .standby = 0#2 ∧ TaskState.code .ready = 1#2 ∧ TaskState.code .execute = 2#2 ∧
  (∀ st : TaskState, st.code ≠ 3#2) ∧
  ∀ (s : State) (idx : Octet),
    encode (.schRddesc idx) &&& 0xFF00FFFF#32 = 0x13000000#32 ∧ idxField (encode (.schRddesc idx)) = idx ∧
    ∃ t, exec (.schRddesc idx) s = .next t ∧
      (s.nTask ≤ idx.toNat → RefusedWith s t .badIdx) ∧
      (∀ st el, s.stAt idx.toNat = some st → s.elAt idx.toNat = some el →
        ∃ w, OnlyAnswers s t w ∧ w.extractLsb' 18 14 = 0#14 ∧ w.extractLsb' 16 2 = st.code ∧ w.extractLsb' 0 16 = el)

/-- R86: SCH_RDPER, its refusal, that it never answers 0, and that it answers PERIOD_INIT[IDX] in any run from reset without
a SCH_SETPER. -/
def Obligations.SchRdperResult : Prop :=
  ∀ (s : State) (idx : Octet),
    encode (.schRdper idx) &&& 0xFF00FFFF#32 = 0x14000000#32 ∧ idxField (encode (.schRdper idx)) = idx ∧
    (∃ t, exec (.schRdper idx) s = .next t ∧
      (s.nTask ≤ idx.toNat → RefusedWith s t .badIdx) ∧
      (∀ per, s.perAt idx.toNat = some per →
        ∃ w, OnlyAnswers s t w ∧ w.toNat = per.toNat ∧ (s.Inv → w ≠ 0#32))) ∧
    ∀ (p : Params) (fill : Nat → Half) (ops : List Op) (per : Half),
      (∀ op ∈ ops, ∀ i period, op.instr ≠ some (.schSetper i period)) → p.periodInit[idx.toNat]? = some per →
      ∃ r t w, runOps ops (State.resetOf p fill) = .next r ∧ exec (.schRdper idx) r = .next t ∧
        Answers r t true w ∧ w.toNat = per.toNat

/-- R88: SCH_RDREADY, bit by bit. -/
def Obligations.SchRdreadyResult : Prop :=
  encode .schRdready = 0x15000000#32 ∧
  ∀ s : State, ∃ t w,
    exec .schRdready s = .next t ∧ OnlyAnswers s t w ∧
    (∀ i, i < 32 → (w.getLsbD i = true ↔ s.stAt i = some .ready)) ∧
    (∀ i, s.nTask ≤ i → w.getLsbD i = false)

/-- R82 (derived there): after a SCH_INIT, with PER[i] = P left alone, descriptor i crosses exactly at ticks P, 2P, 3P, … whatever else is
interleaved: after n ticks EL[i] = n mod P, and the next tick crosses exactly when P divides n + 1. -/
def Obligations.CrossingsComeEveryPeriodTicks : Prop :=
  ∀ (s : State) (i : Nat) (per : Half) (ops : List Op), s.Inv → s.perAt i = some per →
    (∀ op ∈ ops, op.disturbs i = false) →
    ∃ s0 t el, exec .schInit s = .next s0 ∧ runOps ops s0 = .next t ∧
      t.perAt i = some per ∧ t.elAt i = some el ∧ el.toNat = ticksIn ops % per.toNat ∧
      (per.toNat ≤ el.toNat + 1 ↔ per.toNat ∣ ticksIn ops + 1)

/-- R83 (derived there): no dispatcher command writes EL or PER, none reads them (with another EL and PER it answers the same and writes the
same ST, CUR and BUSY), and the counters of two states that agree in EL and PER stay equal under the same operations,
whatever ST, CUR and BUSY are. -/
def Obligations.CountersAreIndependentOfDispatch : Prop :=
  (∀ (i : Instr) (s : State), i ∈ [.dspStep, .dspDone, .dspRdstat] → ∃ t, exec i s = .next t ∧ SameCounters s t ∧
    ∀ table : List Descr, table.map Descr.st = s.table.map Descr.st →
      ∃ t', exec i { s with table := table } = .next t' ∧ t'.responses = t.responses ∧
        t'.table.map Descr.st = t.table.map Descr.st ∧ SameDispatcher t t' ∧ SameStatus t t') ∧
  ∀ (ops : List Op) (s s' : State), SameCounters s s' →
    ∃ t t', runOps ops s = .next t ∧ runOps ops s' = .next t' ∧ SameCounters t t'

/-- Derived from R36 and R87: the only ways ST[i] changes. -/
def Obligations.DescriptorsMoveOnlyAlongTheLifecycle : Prop :=
  ∀ (op : Op) (s : State), ∃ t, serve op s = .next t ∧
    ∀ i a b, s.stAt i = some a → t.stAt i = some b → a ≠ b →
      (op.isTick = true ∧ b = .ready ∧
        ∃ el per, s.elAt i = some el ∧ s.perAt i = some per ∧ per.toNat ≤ el.toNat + 1) ∨
      (op.instr = some .dspStep ∧ a = .ready ∧ b = .execute ∧ i = s.cur.toNat ∧ s.busy = false) ∨
      (op.instr = some .dspDone ∧ b = .standby ∧ i = s.cur.toNat ∧ s.busy = true) ∨
      (op.instr = some .schInit ∧ b = .standby)

/-- R90 (derived there): a crossing of the descriptor whose handler runs makes it READY, and the DSP_DONE that ends the handler writes
STANDBY over it: the activation is lost. -/
def Obligations.CrossingDuringItsOwnHandlerIsLost : Prop :=
  ∀ (s : State) (el per : Half), s.Inv → s.busy = true → s.stAt s.cur.toNat = some .execute →
    s.elAt s.cur.toNat = some el → s.perAt s.cur.toNat = some per → per.toNat ≤ el.toNat + 1 →
    ∃ t u, serve .tickIn s = .next t ∧ t.stAt s.cur.toNat = some .ready ∧
      exec .dspDone t = .next u ∧ u.stAt s.cur.toNat = some .standby ∧ u.elAt s.cur.toNat = some 0#16 ∧ u.busy = false

/-- Derived from R89: a tick leaves every READY descriptor READY, crossing or not, and one run of a handler serves all its
crossings: after it the descriptor is STANDBY. -/
def Obligations.CrossingsOfAReadyDescriptorMerge : Prop :=
  ∀ s : State, s.Inv → ∃ t, serve .tickIn s = .next t ∧
    (∀ i, s.stAt i = some .ready → t.stAt i = some .ready) ∧
    (s.busy = false → s.stAt s.cur.toNat = some .ready →
      ∃ u v, exec .dspStep t = .next u ∧ u.stAt s.cur.toNat = some .execute ∧
        exec .dspDone u = .next v ∧ v.stAt s.cur.toNat = some .standby)

/-! ### The dispatcher -/

/-- R91: DSP_STEP: the refusal while BUSY, the run visit and the idle visit, with their responses and frames. -/
def Obligations.DspStepResult : Prop :=
  encode .dspStep = 0x20000000#32 ∧
  ∀ s : State, s.Inv → ∃ t, exec .dspStep s = .next t ∧
    (s.busy = true → RefusedWith s t .seq) ∧
    (s.busy = false → s.stAt s.cur.toNat = some .ready →
      t.nTask = s.nTask ∧ t.stAt s.cur.toNat = some .execute ∧
      (∀ i, i ≠ s.cur.toNat → t.stAt i = s.stAt i) ∧ SameCounters s t ∧
      t.busy = true ∧ t.cur = s.cur ∧
      SameRing s t ∧ SameFbuf s t ∧ SameStatus s t ∧ SameInputs s t ∧
      ∃ w, Answers s t true w ∧ w.getLsbD 31 = true ∧ w.getLsbD 30 = false ∧ w.extractLsb' 8 22 = 0#22 ∧
        w.extractLsb' 0 8 = s.cur) ∧
    (s.busy = false → s.stAt s.cur.toNat ≠ some .ready →
      s.stAt s.cur.toNat = some .standby ∧ SameTable s t ∧
      t.busy = false ∧ t.cur.toNat = (s.cur.toNat + 1) % s.nTask ∧
      SameRing s t ∧ SameFbuf s t ∧ SameStatus s t ∧ SameInputs s t ∧
      ∃ w, Answers s t true w ∧ w.getLsbD 31 = false ∧ (w.getLsbD 30 = true ↔ s.cur.toNat + 1 = s.nTask) ∧
        w.extractLsb' 8 22 = 0#22 ∧ w.extractLsb' 0 8 = s.cur)

/-- R94: DSP_DONE: the refusal while not BUSY, and the end of a handler with its response and frame. -/
def Obligations.DspDoneResult : Prop :=
  encode .dspDone = 0x21000000#32 ∧
  ∀ s : State, s.Inv → ∃ t, exec .dspDone s = .next t ∧
    (s.busy = false → RefusedWith s t .seq) ∧
    (s.busy = true →
      t.nTask = s.nTask ∧ t.stAt s.cur.toNat = some .standby ∧
      (∀ i, i ≠ s.cur.toNat → t.stAt i = s.stAt i) ∧ SameCounters s t ∧
      t.busy = false ∧ t.cur.toNat = (s.cur.toNat + 1) % s.nTask ∧
      SameRing s t ∧ SameFbuf s t ∧ SameStatus s t ∧ SameInputs s t ∧
      ∃ w, Answers s t true w ∧ w.getLsbD 31 = false ∧ (w.getLsbD 30 = true ↔ s.cur.toNat + 1 = s.nTask) ∧
        w.extractLsb' 8 22 = 0#22 ∧ w.extractLsb' 0 8 = s.cur)

/-- R97: DSP_RDSTAT, and that CUR < NTASK. -/
def Obligations.DspRdstatResult : Prop :=
  encode .dspRdstat = 0x22000000#32 ∧
  ∀ s : State, ∃ t w, exec .dspRdstat s = .next t ∧ OnlyAnswers s t w ∧
    w.extractLsb' 9 23 = 0#23 ∧ w.getLsbD 8 = s.busy ∧ w.extractLsb' 0 8 = s.cur ∧
    (s.Inv → (w.extractLsb' 0 8).toNat < s.nTask)

/-- Derived from R93: in any run that starts with no handler running, whatever else is interleaved, the successful
DSP_STEPs visit CUR, CUR + 1, … in table order and round after round, no index skipped or visited twice in a round. -/
def Obligations.VisitsFollowTheTableOrder : Prop :=
  ∀ (ops : List Op) (s : State), s.Inv → s.busy = false →
    ∀ m c, (visits ops s)[m]? = some c → c = (s.cur.toNat + m) % s.nTask

/-- Derived from R95 and R99: while a handler runs, nothing but DSP_DONE ends it, in any run; CUR stays, and each DSP_STEP
is refused with SEQ. -/
def Obligations.OnlyDspDoneEndsAHandler : Prop :=
  ∀ (ops : List Op) (s : State), s.busy = true → (∀ op ∈ ops, op.instr ≠ some .dspDone) →
    ∃ t u, runOps ops s = .next t ∧ t.busy = true ∧ t.cur = s.cur ∧
      exec .dspStep t = .next u ∧ RefusedWith t u .seq

/-- Derived from R135: a tick that makes descriptor CUR READY, racing a DSP_STEP: both orders are runs of the model, and
they answer RUN and IDLE. -/
def Obligations.TickAndStepInEitherOrder : Prop :=
  ∀ (s : State) (el per : Half), s.Inv → s.busy = false → s.stAt s.cur.toNat ≠ some .ready →
    s.elAt s.cur.toNat = some el → s.perAt s.cur.toNat = some per → per.toNat ≤ el.toNat + 1 →
    (∃ t w, runOps [.tickIn, .command 0x20000000#32] s = .next t ∧ Answers s t true w ∧
      w.getLsbD 31 = true ∧ w.extractLsb' 0 8 = s.cur ∧ t.busy = true) ∧
    (∃ t w, runOps [.command 0x20000000#32, .tickIn] s = .next t ∧ Answers s t true w ∧
      w.getLsbD 31 = false ∧ w.extractLsb' 0 8 = s.cur ∧ t.busy = false ∧ t.stAt s.cur.toNat = some .ready)

/-! ### The ring buffer -/

/-- R102: RB_CLEAR, its frame, what RB_AVG, RB_LAST and RB_STAT answer afterwards, that a second one leaves the same state,
and that no other operation lowers CNT. -/
def Obligations.RbClearResult : Prop :=
  encode .rbClear = 0x30000000#32 ∧
  (∀ (op : Op) (s : State), s.Inv → op.instr ≠ some .rbClear → ∃ t, serve op s = .next t ∧ s.cnt.toNat ≤ t.cnt.toNat) ∧
  ∀ s : State, ∃ t, exec .rbClear s = .next t ∧
    t.cnt = 0#8 ∧ t.wix = 0#8 ∧ t.slot = s.slot ∧
    SameTable s t ∧ SameDispatcher s t ∧ SameFbuf s t ∧ SameStatus s t ∧ SameInputs s t ∧ Answers s t true 0#32 ∧
    (∀ i ∈ [Instr.rbAvg, .rbLast, .rbStat], ∃ u, exec i t = .next u ∧ OnlyAnswers t u 0#32) ∧
    exec .rbClear t = .next (t.respond true 0#32)

/-- R103: RB_PUSH and its frame. -/
def Obligations.RbPushResult : Prop :=
  ∀ (s : State) (value : Half), s.Inv →
    encode (.rbPush value) &&& 0xFFFF0000#32 = 0x31000000#32 ∧ immField (encode (.rbPush value)) = value ∧
    ∃ t, exec (.rbPush value) s = .next t ∧ t.cap = s.cap ∧
      t.slotAt s.wix.toNat = some value ∧ (∀ j, j ≠ s.wix.toNat → t.slotAt j = s.slotAt j) ∧
      t.wix.toNat = (s.wix.toNat + 1) % s.cap ∧
      (s.cnt.toNat < s.cap → t.cnt.toNat = s.cnt.toNat + 1) ∧ (s.cnt.toNat = s.cap → t.cnt = s.cnt) ∧
      SameTable s t ∧ SameDispatcher s t ∧ SameFbuf s t ∧ SameStatus s t ∧ SameInputs s t ∧ Answers s t true 0#32

/-- R105: RB_AVG answers 0 on an empty window, else the truncated mean of the CNT most recent pushes, and changes
nothing. -/
def Obligations.RbAvgResult : Prop :=
  encode .rbAvg = 0x32000000#32 ∧
  ∀ s : State, s.Inv → ∃ t w, exec .rbAvg s = .next t ∧ OnlyAnswers s t w ∧
    (s.cnt = 0#8 → w = 0#32) ∧ (s.cnt ≠ 0#8 → w.toNat = windowSum s / s.cnt.toNat) ∧ w.toNat ≤ 65535

/-- R108: RB_LAST answers 0 on an empty window, else the most recent push, and changes nothing. -/
def Obligations.RbLastResult : Prop :=
  encode .rbLast = 0x33000000#32 ∧
  ∀ s : State, s.Inv → ∃ t w, exec .rbLast s = .next t ∧ OnlyAnswers s t w ∧
    (s.cnt = 0#8 → w = 0#32) ∧
    (s.cnt ≠ 0#8 → ∃ v, s.slotAt ((s.wix.toNat + s.cap - 1) % s.cap) = some v ∧ w.toNat = v.toNat)

/-- R110: RB_STAT, and that after any run since a clear that holds CAP pushes, whatever else is interleaved, it answers
CNT = CAP, WIX = 0. -/
def Obligations.RbStatResult : Prop :=
  encode .rbStat = 0x34000000#32 ∧
  (∀ s : State, ∃ t w, exec .rbStat s = .next t ∧ OnlyAnswers s t w ∧
    w.extractLsb' 16 16 = 0#16 ∧ w.extractLsb' 8 8 = s.cnt ∧ w.extractLsb' 0 8 = s.wix) ∧
  ∀ (ops : List Op) (s : State), s.Inv → (∀ op ∈ ops, op.instr ≠ some .rbClear) → (pushesIn ops).length = s.cap →
    ∃ s0 t u w, exec .rbClear s = .next s0 ∧ runOps ops s0 = .next t ∧
      exec .rbStat t = .next u ∧ OnlyAnswers t u w ∧
      (w.extractLsb' 8 8).toNat = s.cap ∧ w.extractLsb' 0 8 = 0#8

/-- R111 (derived there): a push puts its value at the front of the read window and keeps the CAP most recent; once CNT = CAP, the slot it
writes is the one that holds the oldest value. -/
def Obligations.PushKeepsTheMostRecentValues : Prop :=
  ∀ (s : State) (value : Half), s.Inv → ∃ t, exec (.rbPush value) s = .next t ∧
    t.window = (value :: s.window).take s.cap ∧
    (s.cnt.toNat = s.cap → (s.wix.toNat + s.cap - s.cnt.toNat) % s.cap = s.wix.toNat ∧
      s.window.getLast? = s.slotAt s.wix.toNat)

/-- R107 (derived there): after any run since a clear, whatever else is interleaved, RB_AVG answers the floor of the mean of the last CAP
pushed values, or of all of them with their number as divisor when there are fewer, or 0 when there are none. -/
def Obligations.AverageIsTheMeanOfTheLastPushes : Prop :=
  ∀ (ops : List Op) (s : State), s.Inv → (∀ op ∈ ops, op.instr ≠ some .rbClear) →
    ∃ s0 t u, exec .rbClear s = .next s0 ∧ runOps ops s0 = .next t ∧
      t.window = (pushesIn ops).take s.cap ∧
      exec .rbAvg t = .next u ∧
      Answers t u true (BitVec.ofNat 32 (floorMean ((pushesIn ops).take s.cap)))

/-- R106 (derived there): the sum of the window is below 2^24 and can reach 2^23, so that it needs 24 bits, the mean is taken
of the exact sum, and it fits 16 bits. -/
def Obligations.AverageNeedsA24BitAccumulator : Prop :=
  (∀ s : State, s.Inv →
    windowSum s ≤ s.cap * 65535 ∧ windowSum s < 2 ^ 24 ∧ s.average ≤ 65535 ∧
    (s.cnt ≠ 0#8 → s.average = windowSum s / s.cnt.toNat)) ∧
  ∃ s : State, s.Inv ∧ 2 ^ 23 ≤ windowSum s

/-- Derived from R42 (with R101): two states that differ only in slots outside the read window answer every run alike. -/
def Obligations.SlotsOutsideTheWindowAreNeverSeen : Prop :=
  ∀ (ops : List Op) (s s' : State), s.Inv → SameButHiddenSlots s s' →
    ∃ t t', runOps ops s = .next t ∧ runOps ops s' = .next t' ∧
      t'.responses = t.responses ∧ SameButHiddenSlots t t'

/-- R112 (derived there): with CAP = 1, WIX is 0, CNT is 0 or 1, and after a push RB_AVG and RB_LAST both answer it. -/
def Obligations.CapacityOneHoldsTheLastPush : Prop :=
  ∀ (s : State) (value : Half), s.Inv → s.cap = 1 →
    s.wix = 0#8 ∧ s.cnt.toNat ≤ 1 ∧
    (s.cnt = 0#8 → ∀ i ∈ [Instr.rbAvg, .rbLast], ∃ u, exec i s = .next u ∧ OnlyAnswers s u 0#32) ∧
    ∃ t, exec (.rbPush value) s = .next t ∧ t.cnt = 1#8 ∧ t.wix = 0#8 ∧
      ∀ i ∈ [Instr.rbAvg, .rbLast], ∃ u w, exec i t = .next u ∧ OnlyAnswers t u w ∧ w.toNat = value.toNat

/-! ### The formatter -/

/-- R115 (with R117, R118 and R122): FMT_VAL: the refusal above 99 with FBUF kept, and the text, character by character. -/
def Obligations.FmtValResult : Prop :=
  ∀ (s : State) (value : Half),
    encode (.fmtVal value) &&& 0xFFFF0000#32 = 0x40000000#32 ∧ immField (encode (.fmtVal value)) = value ∧
    ∃ t, exec (.fmtVal value) s = .next t ∧
      (99 < value.toNat → RefusedWith s t .range) ∧
      (value.toNat ≤ 99 →
        (t.fbuf.extractLsb' 0 8).toNat = 0x30 + value.toNat / 10 ∧
        (t.fbuf.extractLsb' 8 8).toNat = 0x30 + value.toNat % 10 ∧
        t.fbuf.extractLsb' 16 8 = 0x2E#8 ∧ t.fbuf.extractLsb' 24 8 = 0x30#8 ∧
        SameTable s t ∧ SameDispatcher s t ∧ SameRing s t ∧ SameStatus s t ∧ SameInputs s t ∧ Answers s t true t.fbuf)

/-- R119 and R120: FMT_AVG is FMT_VAL of the value RB_AVG would answer now, refused when that is above 99; on an empty
buffer it gives 0x302E3030. -/
def Obligations.FmtAvgResult : Prop :=
  encode .fmtAvg = 0x41000000#32 ∧
  ∀ s : State, s.Inv → ∃ a t u, exec .rbAvg s = .next u ∧ Answers s u true (halfWord a) ∧
    exec .fmtAvg s = .next t ∧
    (99 < a.toNat → RefusedWith s t .range) ∧
    (a.toNat ≤ 99 → exec (.fmtVal a) s = .next t ∧ Answers s t true t.fbuf ∧ SameTable s t ∧ SameDispatcher s t ∧
      SameRing s t ∧ SameStatus s t ∧ SameInputs s t) ∧
    (s.cnt = 0#8 → t.fbuf = 0x302E3030#32 ∧ Answers s t true 0x302E3030#32)

/-- R121: FMT_RDBUF answers FBUF and changes nothing; in a run from reset without a successful format that is 0. -/
def Obligations.FmtRdbufResult : Prop :=
  encode .fmtRdbuf = 0x42000000#32 ∧
  (∀ s : State, ∃ t, exec .fmtRdbuf s = .next t ∧ OnlyAnswers s t s.fbuf) ∧
  ∀ (p : Params) (fill : Nat → Half) (ops : List Op), formats ops (State.resetOf p fill) = 0 →
    ∃ t u, runOps ops (State.resetOf p fill) = .next t ∧ exec .fmtRdbuf t = .next u ∧ Answers t u true 0#32

/-! ### Control -/

/-- Derived from R124: CTL_RDSTATUS answers STATUS and changes nothing; after reset that is 0. -/
def Obligations.CtlRdstatusResult : Prop :=
  encode .ctlRdstatus = 0xF0000000#32 ∧
  (∀ s : State, ∃ t, exec .ctlRdstatus s = .next t ∧ OnlyAnswers s t s.status) ∧
  ∀ p fill, ∃ t, exec .ctlRdstatus (State.resetOf p fill) = .next t ∧ Answers (State.resetOf p fill) t true 0#32

/-- Derived from R33, R124 and R137: in any run without a CTL_CLRERR from a cleared STATUS, a sticky bit is set exactly when
a refusal with its code was answered, and LASTERR is the code of the latest refusal, or 0 when there was none. -/
def Obligations.StatusShowsTheRefusalsSinceTheLastClear : Prop :=
  ∀ (ops : List Op) (s : State), s.status = 0#32 → (∀ op ∈ ops, op.instr ≠ some .ctlClrerr) →
    ∃ t answers, runOps ops s = .next t ∧ t.responses = answers ++ s.responses ∧
      (∀ e : CmdError, t.status.getLsbD e.stickyBit = true ↔ ({ ok := false, word := e.codeWord } : Response) ∈ answers) ∧
      lastErr t.status = ((answers.find? (fun r => !r.ok)).map (fun r => r.word.extractLsb' 0 3)).getD 0#3

/-- R126: CTL_CLRERR clears STATUS and answers what it was; a malformed one is refused and leaves E_ILL set. -/
def Obligations.CtlClrerrResult : Prop :=
  encode .ctlClrerr = 0xF1000000#32 ∧
  ∀ s : State,
    (∃ t, exec .ctlClrerr s = .next t ∧ t.status = 0#32 ∧ Answers s t true s.status ∧
      SameTable s t ∧ SameDispatcher s t ∧ SameRing s t ∧ SameFbuf s t ∧ SameInputs s t) ∧
    ∀ w, opField w = 0xF1#8 → w ≠ 0xF1000000#32 →
      ∃ t, serveCommand w s = .next t ∧ RefusedWith s t .ill ∧ t.status.getLsbD 0 = true

/-! ### Whole-machine rules -/

/-- Derived from R50: a reading command that succeeds changes no state element, and repeated at once it answers the
same. -/
def Obligations.ReadingCommandsChangeNothing : Prop :=
  ∀ (i : Instr) (s : State), ReadsOnly i → ∃ t, exec i s = .next t ∧
    ∀ w, Answers s t true w → OnlyAnswers s t w ∧ ∃ u, exec i t = .next u ∧ Answers t u true w

/-- Derived from R51: repeating one of the idempotent commands at once changes no state element and answers the same. -/
def Obligations.RepeatingAnIdempotentCommandChangesNothing : Prop :=
  ∀ (i : Instr) (s : State),
    (i ∈ [.schInit, .rbClear, .fmtAvg] ∨ (∃ idx period, i = .schSetper idx period) ∨ ∃ v, i = .fmtVal v) →
    ∃ t, exec i s = .next t ∧ ∀ w, Answers s t true w → ∃ u, exec i t = .next u ∧ OnlyAnswers t u w

/-- Derived from R35: an operation not listed in an element's column of the write table never writes that element. -/
def Obligations.EachElementHasItsWriters : Prop :=
  ∀ (op : Op) (s : State), ∃ t, serve op s = .next t ∧ t.nTask = s.nTask ∧ t.cap = s.cap ∧
    (op.isTick = false → op.instr ∉ [some .schInit, some .dspStep, some .dspDone] → ∀ i, t.stAt i = s.stAt i) ∧
    (op.isTick = false → op.instr ≠ some .schInit → ∀ i, t.elAt i = s.elAt i) ∧
    ((∀ idx period, op.instr ≠ some (.schSetper idx period)) → ∀ i, t.perAt i = s.perAt i) ∧
    (op.instr ∉ [some .dspStep, some .dspDone] → SameDispatcher s t) ∧
    ((∀ v, op.instr ≠ some (.rbPush v)) → t.slot = s.slot ∧ (op.instr ≠ some .rbClear → SameRing s t)) ∧
    ((∀ v, op.instr ≠ some (.fmtVal v)) → op.instr ≠ some .fmtAvg → SameFbuf s t) ∧
    (op.instr ≠ some .ctlClrerr → (∀ v, ¬ Answers s t false v) → SameStatus s t)

/-- Derived from R71: what NOP and SCH_CONFIG expand to, that NOP changes no state element (its response is recorded like
any other, log 17), and that SCH_CONFIG leaves every descriptor STANDBY, with EL 0 and its given period. -/
def Obligations.PseudoCommandsDoWhatTheyStandFor : Prop :=
  ∀ s : State, s.Inv →
    (assembleLine s.nTask .nop = .ok [.command (encode .ctlRdstatus)] ∧
      ∃ t w, runOps [.command (encode .ctlRdstatus)] s = .next t ∧ OnlyAnswers s t w) ∧
    ∀ periods : List Nat, periods.length = s.nTask → (∀ p ∈ periods, 1 ≤ p ∧ p ≤ 65535) →
      ∃ ops t, assembleLine s.nTask (.config periods) = .ok ops ∧
        ops = (List.range s.nTask).map
            (fun i => .command (encode (.schSetper (BitVec.ofNat 8 i) (BitVec.ofNat 16 (periods.getD i 0))))) ++
          [.command (encode .schInit)] ∧
        runOps ops s = .next t ∧ t.nTask = s.nTask ∧
        ∀ i p, periods[i]? = some p → t.stAt i = some .standby ∧ t.elAt i = some 0#16 ∧
          t.perAt i = some (BitVec.ofNat 16 p)
end

