-- ==== Sys2Proof/Laws/Decode.lean ====
section
/-! SUPPORT. Laws of the word format, the opcode table and the decoder (30_encoding.md R61 to R68). -/

namespace Sys2Proof

/-! ### Format C32 -/

/-- The bits of a word of format C32 (R61). -/
theorem getLsbD_c32 (op idx : Octet) (imm : Half) (i : Nat) :
    (c32 op idx imm).getLsbD i =
      if i < 16 then imm.getLsbD i else if i - 16 < 8 then idx.getLsbD (i - 16) else op.getLsbD (i - 16 - 8) := by
  change BitVec.getLsbD (w := 8 + 8 + 16) (op ++ idx ++ imm) i = _
  simp only [BitVec.getLsbD_append]

@[simp] theorem opField_c32 (op idx : Octet) (imm : Half) : opField (c32 op idx imm) = op := by
  refine BitVec.eq_of_getLsbD_eq fun i hi => ?_
  simp [opField, getLsbD_c32, hi, show ¬ 24 + i < 16 by omega, show ¬ 24 + i - 16 < 8 by omega,
    show 24 + i - 16 - 8 = i by omega]

@[simp] theorem idxField_c32 (op idx : Octet) (imm : Half) : idxField (c32 op idx imm) = idx := by
  refine BitVec.eq_of_getLsbD_eq fun i hi => ?_
  simp [idxField, getLsbD_c32, hi]

@[simp] theorem immField_c32 (op idx : Octet) (imm : Half) : immField (c32 op idx imm) = imm := by
  refine BitVec.eq_of_getLsbD_eq fun i hi => ?_
  simp [immField, getLsbD_c32, hi]

/-- A word is its three fields (R61). -/
theorem c32_fields (w : Word) : c32 (opField w) (idxField w) (immField w) = w := by
  refine BitVec.eq_of_getLsbD_eq fun i hi => ?_
  simp only [getLsbD_c32, opField, idxField, immField, BitVec.getLsbD_extractLsb']
  split
  · simp [*]
  · split
    · simp [*, show 16 + (i - 16) = i by omega]
    · simp [show i - 16 - 8 < 8 by omega, show 24 + (i - 16 - 8) = i by omega]

theorem c32_injective {op idx op' idx' : Octet} {imm imm' : Half} (h : c32 op idx imm = c32 op' idx' imm') :
    op = op' ∧ idx = idx' ∧ imm = imm' :=
  ⟨by simpa using congrArg opField h, by simpa using congrArg idxField h, by simpa using congrArg immField h⟩

/-- Masking works field by field. -/
theorem c32_and (op idx op' idx' : Octet) (imm imm' : Half) :
    c32 op idx imm &&& c32 op' idx' imm' = c32 (op &&& op') (idx &&& idx') (imm &&& imm') := by
  change (op ++ idx ++ imm) &&& (op' ++ idx' ++ imm') = (op &&& op') ++ (idx &&& idx') ++ (imm &&& imm')
  rw [BitVec.and_append, BitVec.and_append]

/-! ### The opcode table -/

/-- Each row's mask and pattern say what its IDX and IMM columns say (R63, R65). -/
theorem rows_mask : ∀ r ∈ rows,
    r.mask = c32 0xFF#8 (if r.usesIdx then 0#8 else 0xFF#8) (if r.usesImm then 0#16 else 0xFFFF#16) ∧
      r.pattern = c32 r.op 0#8 0#16 := by decide

/-- The 19 rows have 19 different OPs and 19 different mnemonics. -/
theorem rows_ops_nodup : (rows.map Row.op).Nodup := by decide

theorem rows_length : rows.length = 19 := by decide

/-- A row's word: its OP, with each unused field zero (R63, R65). -/
theorem row_matches_iff {r : Row} (hr : r ∈ rows) (w : Word) :
    w &&& r.mask = r.pattern ↔
      opField w = r.op ∧ (r.usesIdx = false → idxField w = 0#8) ∧ (r.usesImm = false → immField w = 0#16) := by
  obtain ⟨hm, hp⟩ := rows_mask r hr
  have hff (x : Octet) : x &&& 0xFF#8 = x := BitVec.and_allOnes
  have hffff (x : Half) : x &&& 0xFFFF#16 = x := BitVec.and_allOnes
  rw [hm, hp]
  conv_lhs => rw [← c32_fields w, c32_and]
  constructor
  · intro h
    obtain ⟨h1, h2, h3⟩ := c32_injective h
    refine ⟨(hff _).symm.trans h1, fun hu => ?_, fun hu => ?_⟩
    · rw [hu] at h2
      exact (hff _).symm.trans h2
    · rw [hu] at h3
      exact (hffff _).symm.trans h3
  · rintro ⟨h1, h2, h3⟩
    have hop : opField w &&& 0xFF#8 = r.op := (hff _).trans h1
    cases hi : r.usesIdx <;> cases hv : r.usesImm <;> simp [hi, hv] at h2 h3 <;> simp [*]

/-- Two rows with one OP are one row. -/
theorem row_eq_of_op {r q : Row} (hr : r ∈ rows) (hq : q ∈ rows) (h : r.op = q.op) : r = q :=
  List.inj_on_of_nodup_map rows_ops_nodup hr hq h

/-- The decoder finds a row by its OP (R66). -/
theorem find_row {r : Row} (hr : r ∈ rows) {w : Word} (h : opField w = r.op) :
    rows.find? (fun q => q.op == opField w) = some r := by
  cases hf : rows.find? (fun q => q.op == opField w) with
  | none => exact absurd (List.find?_eq_none.mp hf r hr) (by simp [h])
  | some q =>
    have hq : q.op = opField w := by simpa using List.find?_some hf
    rw [row_eq_of_op (List.mem_of_find?_eq_some hf) hr (hq.trans h)]

/-- What the decoder answers on a word that a row matches. -/
theorem decode_of_row {r : Row} (hr : r ∈ rows) {w : Word} (h : w &&& r.mask = r.pattern) :
    decode w = .ok (r.build (idxField w) (immField w)) := by
  have hop := ((row_matches_iff hr w).mp h).1
  simp [decode, find_row hr hop, h]

/-- Every command the decoder answers comes from a row that matches. -/
theorem row_of_decode {w : Word} {i : Instr} (h : decode w = .ok i) :
    ∃ r ∈ rows, w &&& r.mask = r.pattern ∧ i = r.build (idxField w) (immField w) := by
  unfold decode at h
  split at h
  · cases h
  · rename_i r hf
    split at h
    · rename_i hm
      exact ⟨r, List.mem_of_find?_eq_some hf, hm, by simpa using h.symm⟩
    · cases h

/-- Each row builds the command whose word it matches. -/
theorem encode_build : ∀ r ∈ rows, ∀ (idx : Octet) (imm : Half),
    encode (r.build idx imm) = c32 r.op (if r.usesIdx then idx else 0#8) (if r.usesImm then imm else 0#16) := by
  intro r hr idx imm
  simp only [rows, schRows, dspRows, rbRows, fmtCtlRows, List.mem_append, List.mem_cons, List.not_mem_nil, or_false] at hr
  rcases hr with (((h | h | h | h | h | h) | (h | h | h)) | (h | h | h | h | h)) | (h | h | h | h | h) <;>
    subst h <;> rfl

end Sys2Proof
end

