-- ==== Sys2Proof/Laws/State.lean ====
section
/-! SUPPORT. What each update of the state does to each field: one lemma a field, true by definition, so that no later proof
unfolds a record update. -/

namespace Sys2Proof.Machine

variable (s : State)

/-! Responding touches the responses only (30_encoding.md R69). -/

@[simp] theorem respond_table (ok : Bool) (w : Word) : (s.respond ok w).table = s.table := rfl
@[simp] theorem respond_cur (ok : Bool) (w : Word) : (s.respond ok w).cur = s.cur := rfl
@[simp] theorem respond_busy (ok : Bool) (w : Word) : (s.respond ok w).busy = s.busy := rfl
@[simp] theorem respond_slot (ok : Bool) (w : Word) : (s.respond ok w).slot = s.slot := rfl
@[simp] theorem respond_wix (ok : Bool) (w : Word) : (s.respond ok w).wix = s.wix := rfl
@[simp] theorem respond_cnt (ok : Bool) (w : Word) : (s.respond ok w).cnt = s.cnt := rfl
@[simp] theorem respond_fbuf (ok : Bool) (w : Word) : (s.respond ok w).fbuf = s.fbuf := rfl
@[simp] theorem respond_status (ok : Bool) (w : Word) : (s.respond ok w).status = s.status := rfl
@[simp] theorem respond_responses (ok : Bool) (w : Word) :
    (s.respond ok w).responses = { ok := ok, word := w } :: s.responses := rfl
@[simp] theorem respond_inputs (ok : Bool) (w : Word) : (s.respond ok w).inputs = s.inputs := rfl

/-! A refusal touches STATUS and the responses only (60_exceptions.md R130, R131). -/

@[simp] theorem raiseCmdError_table (e : CmdError) : (s.raiseCmdError e).table = s.table := rfl
@[simp] theorem raiseCmdError_cur (e : CmdError) : (s.raiseCmdError e).cur = s.cur := rfl
@[simp] theorem raiseCmdError_busy (e : CmdError) : (s.raiseCmdError e).busy = s.busy := rfl
@[simp] theorem raiseCmdError_slot (e : CmdError) : (s.raiseCmdError e).slot = s.slot := rfl
@[simp] theorem raiseCmdError_wix (e : CmdError) : (s.raiseCmdError e).wix = s.wix := rfl
@[simp] theorem raiseCmdError_cnt (e : CmdError) : (s.raiseCmdError e).cnt = s.cnt := rfl
@[simp] theorem raiseCmdError_fbuf (e : CmdError) : (s.raiseCmdError e).fbuf = s.fbuf := rfl
@[simp] theorem raiseCmdError_status (e : CmdError) : (s.raiseCmdError e).status = statusAfter e s.status := rfl
@[simp] theorem raiseCmdError_responses (e : CmdError) :
    (s.raiseCmdError e).responses = { ok := false, word := e.codeWord } :: s.responses := rfl
@[simp] theorem raiseCmdError_inputs (e : CmdError) : (s.raiseCmdError e).inputs = s.inputs := rfl

/-! A tick touches the table only (40_scheduler.md R77). -/

@[simp] theorem tickAll_table : (s.tickAll).table = s.table.map Descr.tick := rfl
@[simp] theorem tickAll_cur : (s.tickAll).cur = s.cur := rfl
@[simp] theorem tickAll_busy : (s.tickAll).busy = s.busy := rfl
@[simp] theorem tickAll_slot : (s.tickAll).slot = s.slot := rfl
@[simp] theorem tickAll_wix : (s.tickAll).wix = s.wix := rfl
@[simp] theorem tickAll_cnt : (s.tickAll).cnt = s.cnt := rfl
@[simp] theorem tickAll_fbuf : (s.tickAll).fbuf = s.fbuf := rfl
@[simp] theorem tickAll_status : (s.tickAll).status = s.status := rfl
@[simp] theorem tickAll_responses : (s.tickAll).responses = s.responses := rfl
@[simp] theorem tickAll_inputs : (s.tickAll).inputs = s.inputs := rfl

/-! Writing ST[i] touches the table only. -/

@[simp] theorem setSt_table (i : Nat) (st : TaskState) :
    (s.setSt i st).table = s.table.modify i (fun d => { d with st := st }) := rfl
@[simp] theorem setSt_cur (i : Nat) (st : TaskState) : (s.setSt i st).cur = s.cur := rfl
@[simp] theorem setSt_busy (i : Nat) (st : TaskState) : (s.setSt i st).busy = s.busy := rfl
@[simp] theorem setSt_slot (i : Nat) (st : TaskState) : (s.setSt i st).slot = s.slot := rfl
@[simp] theorem setSt_wix (i : Nat) (st : TaskState) : (s.setSt i st).wix = s.wix := rfl
@[simp] theorem setSt_cnt (i : Nat) (st : TaskState) : (s.setSt i st).cnt = s.cnt := rfl
@[simp] theorem setSt_fbuf (i : Nat) (st : TaskState) : (s.setSt i st).fbuf = s.fbuf := rfl
@[simp] theorem setSt_status (i : Nat) (st : TaskState) : (s.setSt i st).status = s.status := rfl
@[simp] theorem setSt_responses (i : Nat) (st : TaskState) : (s.setSt i st).responses = s.responses := rfl
@[simp] theorem setSt_inputs (i : Nat) (st : TaskState) : (s.setSt i st).inputs = s.inputs := rfl

/-! Writing PER[i] touches the table only. -/

@[simp] theorem setPer_table (i : Nat) (period : Half) :
    (s.setPer i period).table = s.table.modify i (fun d => { d with per := period }) := rfl
@[simp] theorem setPer_cur (i : Nat) (period : Half) : (s.setPer i period).cur = s.cur := rfl
@[simp] theorem setPer_busy (i : Nat) (period : Half) : (s.setPer i period).busy = s.busy := rfl
@[simp] theorem setPer_slot (i : Nat) (period : Half) : (s.setPer i period).slot = s.slot := rfl
@[simp] theorem setPer_wix (i : Nat) (period : Half) : (s.setPer i period).wix = s.wix := rfl
@[simp] theorem setPer_cnt (i : Nat) (period : Half) : (s.setPer i period).cnt = s.cnt := rfl
@[simp] theorem setPer_fbuf (i : Nat) (period : Half) : (s.setPer i period).fbuf = s.fbuf := rfl
@[simp] theorem setPer_status (i : Nat) (period : Half) : (s.setPer i period).status = s.status := rfl
@[simp] theorem setPer_responses (i : Nat) (period : Half) : (s.setPer i period).responses = s.responses := rfl
@[simp] theorem setPer_inputs (i : Nat) (period : Half) : (s.setPer i period).inputs = s.inputs := rfl

/-! A run visit (41_dispatcher.md R91). -/

@[simp] theorem runVisit_table : (s.runVisit).table = (s.setSt s.cur.toNat .execute).table := rfl
@[simp] theorem runVisit_cur : (s.runVisit).cur = s.cur := rfl
@[simp] theorem runVisit_busy : (s.runVisit).busy = true := rfl
@[simp] theorem runVisit_slot : (s.runVisit).slot = s.slot := rfl
@[simp] theorem runVisit_wix : (s.runVisit).wix = s.wix := rfl
@[simp] theorem runVisit_cnt : (s.runVisit).cnt = s.cnt := rfl
@[simp] theorem runVisit_fbuf : (s.runVisit).fbuf = s.fbuf := rfl
@[simp] theorem runVisit_status : (s.runVisit).status = s.status := rfl
@[simp] theorem runVisit_responses :
    (s.runVisit).responses = { ok := true, word := visitWord true false s.cur } :: s.responses := rfl
@[simp] theorem runVisit_inputs : (s.runVisit).inputs = s.inputs := rfl

/-! An idle visit (41_dispatcher.md R91). -/

@[simp] theorem idleVisit_table : (s.idleVisit).table = s.table := rfl
@[simp] theorem idleVisit_cur : (s.idleVisit).cur = s.nextCur := rfl
@[simp] theorem idleVisit_busy : (s.idleVisit).busy = s.busy := rfl
@[simp] theorem idleVisit_slot : (s.idleVisit).slot = s.slot := rfl
@[simp] theorem idleVisit_wix : (s.idleVisit).wix = s.wix := rfl
@[simp] theorem idleVisit_cnt : (s.idleVisit).cnt = s.cnt := rfl
@[simp] theorem idleVisit_fbuf : (s.idleVisit).fbuf = s.fbuf := rfl
@[simp] theorem idleVisit_status : (s.idleVisit).status = s.status := rfl
@[simp] theorem idleVisit_responses :
    (s.idleVisit).responses = { ok := true, word := visitWord false s.wraps s.cur } :: s.responses := rfl
@[simp] theorem idleVisit_inputs : (s.idleVisit).inputs = s.inputs := rfl

/-! The end of a handler (41_dispatcher.md R94). -/

@[simp] theorem endHandler_table : (s.endHandler).table = (s.setSt s.cur.toNat .standby).table := rfl
@[simp] theorem endHandler_cur : (s.endHandler).cur = s.nextCur := rfl
@[simp] theorem endHandler_busy : (s.endHandler).busy = false := rfl
@[simp] theorem endHandler_slot : (s.endHandler).slot = s.slot := rfl
@[simp] theorem endHandler_wix : (s.endHandler).wix = s.wix := rfl
@[simp] theorem endHandler_cnt : (s.endHandler).cnt = s.cnt := rfl
@[simp] theorem endHandler_fbuf : (s.endHandler).fbuf = s.fbuf := rfl
@[simp] theorem endHandler_status : (s.endHandler).status = s.status := rfl
@[simp] theorem endHandler_responses :
    (s.endHandler).responses = { ok := true, word := visitWord false s.wraps s.cur } :: s.responses := rfl
@[simp] theorem endHandler_inputs : (s.endHandler).inputs = s.inputs := rfl

/-! A push touches the ring buffer only (42_ringbuffer.md R103, R114). -/

@[simp] theorem push_table (v : Half) : (s.push v).table = s.table := rfl
@[simp] theorem push_cur (v : Half) : (s.push v).cur = s.cur := rfl
@[simp] theorem push_busy (v : Half) : (s.push v).busy = s.busy := rfl
@[simp] theorem push_slot (v : Half) : (s.push v).slot = s.slot.set s.wix.toNat v := rfl
@[simp] theorem push_wix (v : Half) : (s.push v).wix = BitVec.ofNat 8 ((s.wix.toNat + 1) % s.cap) := rfl
@[simp] theorem push_cnt (v : Half) :
    (s.push v).cnt = if s.cnt.toNat < s.cap then BitVec.ofNat 8 (s.cnt.toNat + 1) else s.cnt := rfl
@[simp] theorem push_fbuf (v : Half) : (s.push v).fbuf = s.fbuf := rfl
@[simp] theorem push_status (v : Half) : (s.push v).status = s.status := rfl
@[simp] theorem push_responses (v : Half) : (s.push v).responses = s.responses := rfl
@[simp] theorem push_inputs (v : Half) : (s.push v).inputs = s.inputs := rfl

/-! Offering a command touches the operations to come only (log 7). -/

@[simp] theorem offerCommand_table (c : Word) : (s.offerCommand c).table = s.table := rfl
@[simp] theorem offerCommand_cur (c : Word) : (s.offerCommand c).cur = s.cur := rfl
@[simp] theorem offerCommand_busy (c : Word) : (s.offerCommand c).busy = s.busy := rfl
@[simp] theorem offerCommand_slot (c : Word) : (s.offerCommand c).slot = s.slot := rfl
@[simp] theorem offerCommand_wix (c : Word) : (s.offerCommand c).wix = s.wix := rfl
@[simp] theorem offerCommand_cnt (c : Word) : (s.offerCommand c).cnt = s.cnt := rfl
@[simp] theorem offerCommand_fbuf (c : Word) : (s.offerCommand c).fbuf = s.fbuf := rfl
@[simp] theorem offerCommand_status (c : Word) : (s.offerCommand c).status = s.status := rfl
@[simp] theorem offerCommand_responses (c : Word) : (s.offerCommand c).responses = s.responses := rfl
@[simp] theorem offerCommand_inputs (c : Word) : (s.offerCommand c).inputs = .command c :: s.inputs := rfl

/-! The sizes of the two arrays depend on the arrays only (10_state.md R21, R28). -/

@[simp] theorem respond_nTask (ok : Bool) (w : Word) : (s.respond ok w).nTask = s.nTask := rfl
@[simp] theorem raiseCmdError_nTask (e : CmdError) : (s.raiseCmdError e).nTask = s.nTask := rfl
@[simp] theorem tickAll_nTask : s.tickAll.nTask = s.nTask := by simp [State.nTask]
@[simp] theorem setSt_nTask (i : Nat) (st : TaskState) : (s.setSt i st).nTask = s.nTask := by simp [State.nTask]
@[simp] theorem setPer_nTask (i : Nat) (period : Half) : (s.setPer i period).nTask = s.nTask := by simp [State.nTask]
@[simp] theorem respond_cap (ok : Bool) (w : Word) : (s.respond ok w).cap = s.cap := rfl
@[simp] theorem raiseCmdError_cap (e : CmdError) : (s.raiseCmdError e).cap = s.cap := rfl
@[simp] theorem push_cap (v : Half) : (s.push v).cap = s.cap := by simp [State.cap]

end Sys2Proof.Machine
end

