-- ==== Sys2Proof/Laws/Ops.lean ====
section
/-! SUPPORT. What each shared operation does, said once: provers cite these and do not unfold the operations. -/

namespace Sys2Proof.Machine

variable {s : State}

/-! ### Reading the arrays -/

theorem stAt_eq_some {i : Nat} {st : TaskState} : s.stAt i = some st ↔ ∃ d, s.table[i]? = some d ∧ d.st = st := by
  simp [State.stAt]

theorem elAt_eq_some {i : Nat} {el : Half} : s.elAt i = some el ↔ ∃ d, s.table[i]? = some d ∧ d.el = el := by
  simp [State.elAt]

theorem perAt_eq_some {i : Nat} {per : Half} : s.perAt i = some per ↔ ∃ d, s.table[i]? = some d ∧ d.per = per := by
  simp [State.perAt]

theorem table_lt_nTask {i : Nat} {d : Descr} (h : s.table[i]? = some d) : i < s.nTask :=
  (List.getElem?_eq_some_iff.mp h).1

theorem exists_descr {i : Nat} (h : i < s.nTask) : ∃ d, s.table[i]? = some d :=
  ⟨_, List.getElem?_eq_getElem h⟩

theorem mem_table {i : Nat} {d : Descr} (h : s.table[i]? = some d) : d ∈ s.table := List.mem_of_getElem? h

/-! ### Refusing -/

/-- The refusal primitive is a refusal in the words of claims (60_exceptions.md R131). -/
theorem raiseCmdError_refused (s : State) (e : CmdError) : RefusedWith s (s.raiseCmdError e) e :=
  ⟨rfl, ⟨rfl, rfl⟩, ⟨rfl, rfl, rfl⟩, rfl, rfl, rfl, rfl⟩

/-- A refusal is told from a success by its response. -/
theorem raiseCmdError_ne_success {e : CmdError} {t : State} {w : Word} (ht : Answers s t true w) :
    t ≠ s.raiseCmdError e := by
  rintro rfl
  simp [Answers] at ht

theorem codeWord_injective {e e' : CmdError} (h : e.codeWord = e'.codeWord) : e = e' := by
  cases e <;> cases e' <;> first | rfl | exact absurd h (by decide)

/-- The refusals of one state are told apart by their codes (R132). -/
theorem raiseCmdError_injective {e e' : CmdError} (h : s.raiseCmdError e = s.raiseCmdError e') : e = e' := by
  have := congrArg State.responses h
  simp at this
  exact codeWord_injective this

/-- Every bit of STATUS after a refusal (R131). -/
theorem getLsbD_statusAfter (e : CmdError) (status : Word) (b : Nat) :
    (statusAfter e status).getLsbD b =
      (((status &&& 0xFFFFF8FF#32).getLsbD b || (e.codeWord <<< 8).getLsbD b) ||
        (1#32 <<< e.stickyBit).getLsbD b) := by
  simp only [statusAfter, BitVec.getLsbD_or]

/-! ### The index check -/

theorem withDescr_of_lt {idx : Octet} {d : Descr} (h : s.table[idx.toNat]? = some d) (go : Descr → State) :
    s.withDescr idx go = go d := by
  simp [State.withDescr, State.descrOf, h]

theorem withDescr_of_ge {idx : Octet} (h : s.nTask ≤ idx.toNat) (go : Descr → State) :
    s.withDescr idx go = s.raiseCmdError .badIdx := by
  have : s.table[idx.toNat]? = none := List.getElem?_eq_none h
  simp [State.withDescr, State.descrOf, this]

/-- All the index check can do (R133): refuse with BADIDX, or go on with the descriptor. -/
theorem withDescr_cases (s : State) (idx : Octet) (go : Descr → State) :
    (s.nTask ≤ idx.toNat ∧ s.withDescr idx go = s.raiseCmdError .badIdx) ∨
      ∃ d, idx.toNat < s.nTask ∧ s.table[idx.toNat]? = some d ∧ s.withDescr idx go = go d := by
  by_cases h : s.nTask ≤ idx.toNat
  · exact .inl ⟨h, withDescr_of_ge h go⟩
  · obtain ⟨d, hd⟩ := exists_descr (Nat.lt_of_not_le h)
    exact .inr ⟨d, Nat.lt_of_not_le h, hd, withDescr_of_lt hd go⟩

/-! ### A tick -/

@[simp] theorem tick_per (d : Descr) : d.tick.per = d.per := by
  unfold Descr.tick; split <;> rfl

/-- A crossing tick (40_scheduler.md R77, R78). -/
theorem tick_of_crosses {d : Descr} (h : d.per.toNat ≤ d.el.toNat + 1) : d.tick = { d with st := .ready, el := 0#16 } := by
  simp [Descr.tick, Descr.crosses, h]

/-- A tick that does not cross (R77). -/
theorem tick_of_not_crosses {d : Descr} (h : d.el.toNat + 1 < d.per.toNat) :
    d.tick = { d with el := BitVec.ofNat 16 (d.el.toNat + 1) } := by
  simp [Descr.tick, Descr.crosses, show ¬ d.per.toNat ≤ d.el.toNat + 1 by omega]

/-- EL + 1 fits when the tick does not cross (R79). -/
theorem el_succ_toNat {d : Descr} (h : d.el.toNat + 1 < d.per.toNat) :
    (BitVec.ofNat 16 (d.el.toNat + 1)).toNat = d.el.toNat + 1 := by
  have := d.per.isLt
  simp only [BitVec.toNat_ofNat]
  omega

/-- After a tick EL is below PER (10_state.md R39). -/
theorem tick_el_lt {d : Descr} (h : d.per ≠ 0#16) : d.tick.el.toNat < d.per.toNat := by
  by_cases hc : d.per.toNat ≤ d.el.toNat + 1
  · have : d.per.toNat ≠ 0 := fun h0 => h (BitVec.eq_of_toNat_eq (by simpa using h0))
    simp [tick_of_crosses hc]
    omega
  · have hc : d.el.toNat + 1 < d.per.toNat := Nat.lt_of_not_le hc
    simp only [tick_of_not_crosses hc, el_succ_toNat hc]
    exact hc

theorem tickAll_getElem? (s : State) (i : Nat) : s.tickAll.table[i]? = (s.table[i]?).map Descr.tick := by simp

/-! ### Writing the table -/

theorem setSt_getElem? (s : State) (i j : Nat) (st : TaskState) :
    (s.setSt i st).table[j]? = (s.table[j]?).map (fun d => if i = j then { d with st := st } else d) := by
  simp only [setSt_table, List.getElem?_modify]
  split <;> simp

theorem setPer_getElem? (s : State) (i j : Nat) (period : Half) :
    (s.setPer i period).table[j]? = (s.table[j]?).map (fun d => if i = j then { d with per := period } else d) := by
  simp only [setPer_table, List.getElem?_modify]
  split <;> simp

/-- Writing an ST changes no counter and no period (40_scheduler.md R83). -/
theorem setSt_sameCounters (s : State) (i : Nat) (st : TaskState) : SameCounters s (s.setSt i st) := by
  refine List.ext_getElem? fun j => ?_
  simp only [List.getElem?_map, setSt_getElem?, Option.map_map]
  congr 1
  funext d
  simp only [Function.comp_apply]
  split <;> rfl

/-! ### The dispatcher -/

/-- CUR after a visit, when NTASK fits 8 bits (10_state.md R26). -/
theorem nextCur_toNat (h : s.nTask ≤ 256) (hn : 1 ≤ s.nTask) : s.nextCur.toNat = (s.cur.toNat + 1) % s.nTask := by
  have := Nat.mod_lt (s.cur.toNat + 1) hn
  simp only [State.nextCur, BitVec.toNat_ofNat]
  exact Nat.mod_eq_of_lt (by omega)

/-! ### The ring buffer -/

/-- Inside a nonempty array the slot of a push ago is read, not a default (42_ringbuffer.md R101). -/
theorem slotAt_pushedAgo (h : 1 ≤ s.cap) (k : Nat) :
    s.slotAt ((s.wix.toNat + s.cap - k) % s.cap) = some (s.pushedAgo k) := by
  have hlt : (s.wix.toNat + s.cap - k) % s.cap < s.slot.length := Nat.mod_lt _ h
  simp [State.slotAt, State.pushedAgo, List.getD_eq_getElem?_getD, List.getElem?_eq_getElem hlt]

theorem window_length (s : State) : s.window.length = s.cnt.toNat := by simp [State.window]

/-- The window's sum is the sum over k of R105. -/
theorem window_sum (h : 1 ≤ s.cap) : (s.window.map BitVec.toNat).sum = windowSum s := by
  simp [State.window, windowSum, slotAt_pushedAgo h, Function.comp_def]

theorem cnt_eq_zero_iff : s.cnt = 0#8 ↔ s.cnt.toNat = 0 :=
  ⟨fun h => by simp [h], fun h => BitVec.eq_of_toNat_eq (by simpa using h)⟩

theorem average_of_empty (h : s.cnt = 0#8) : s.average = 0 := by simp [State.average, h]

theorem average_of_nonempty (h : s.cnt ≠ 0#8) : s.average = (s.window.map BitVec.toNat).sum / s.cnt.toNat := by
  rw [State.average, if_neg h]

theorem push_wix_toNat (hc : 1 ≤ s.cap) (hb : s.cap ≤ 255) (v : Half) :
    (s.push v).wix.toNat = (s.wix.toNat + 1) % s.cap := by
  have := Nat.mod_lt (s.wix.toNat + 1) hc
  simp only [push_wix, BitVec.toNat_ofNat]
  exact Nat.mod_eq_of_lt (by omega)

theorem push_cnt_toNat (hb : s.cap ≤ 255) (v : Half) :
    (s.push v).cnt.toNat = if s.cnt.toNat < s.cap then s.cnt.toNat + 1 else s.cnt.toNat := by
  simp only [push_cnt]
  split
  · simp only [BitVec.toNat_ofNat]; omega
  · rfl

/-- The value pushed k + 1 pushes ago was pushed k pushes ago before the push (R103, R111). -/
theorem push_pushedAgo_succ (hc : 1 ≤ s.cap) (hb : s.cap ≤ 255) (hw : s.wix.toNat < s.cap) (v : Half) {k : Nat}
    (h1 : 1 ≤ k) (hk : k < s.cap) : (s.push v).pushedAgo (k + 1) = s.pushedAgo k := by
  have hidx : ((s.wix.toNat + 1) % s.cap + s.cap - (k + 1)) % s.cap = (s.wix.toNat + s.cap - k) % s.cap := by
    rcases Nat.lt_or_ge (s.wix.toNat + 1) s.cap with h | h
    · rw [Nat.mod_eq_of_lt h]
      congr 1
      omega
    · have he : s.wix.toNat + 1 = s.cap := by omega
      rw [he, Nat.mod_self, show s.wix.toNat + s.cap - k = (0 + s.cap - (k + 1)) + s.cap by omega, Nat.add_mod_right]
  have hne : s.wix.toNat ≠ (s.wix.toNat + s.cap - k) % s.cap := by
    rcases Nat.lt_or_ge s.wix.toNat k with h | h
    · rw [Nat.mod_eq_of_lt (by omega)]
      omega
    · rw [show s.wix.toNat + s.cap - k = (s.wix.toNat - k) + s.cap by omega, Nat.add_mod_right,
        Nat.mod_eq_of_lt (by omega)]
      omega
  simp only [State.pushedAgo, push_cap, push_wix_toNat hc hb, hidx, push_slot, List.getD_eq_getElem?_getD]
  rw [List.getElem?_set_ne hne]

/-- The most recent value is the one just pushed (R108). -/
theorem push_pushedAgo_one (hc : 1 ≤ s.cap) (hb : s.cap ≤ 255) (hw : s.wix.toNat < s.cap) (v : Half) :
    (s.push v).pushedAgo 1 = v := by
  have hidx : ((s.wix.toNat + 1) % s.cap + s.cap - 1) % s.cap = s.wix.toNat := by
    rcases Nat.lt_or_ge (s.wix.toNat + 1) s.cap with h | h
    · rw [Nat.mod_eq_of_lt h, show s.wix.toNat + 1 + s.cap - 1 = s.wix.toNat + s.cap by omega, Nat.add_mod_right,
        Nat.mod_eq_of_lt hw]
    · have he : s.wix.toNat + 1 = s.cap := by omega
      rw [he, Nat.mod_self, Nat.mod_eq_of_lt (by omega)]
      omega
  have hl : s.wix.toNat < s.slot.length := hw
  simp only [State.pushedAgo, push_cap, push_wix_toNat hc hb, hidx, push_slot, List.getD_eq_getElem?_getD]
  rw [List.getElem?_set_self hl]
  rfl

/-! ### The outside world -/

theorem takeOp_nil (h : s.inputs = []) : s.takeOp = none := by simp [State.takeOp, h]

theorem takeOp_cons {op : Op} {rest : List Op} (h : s.inputs = op :: rest) :
    s.takeOp = some (op, { s with inputs := rest }) := by simp [State.takeOp, h]

end Sys2Proof.Machine
end

