-- ==== Sys2Proof/Laws/PerInstr.lean ====
section
/-! SUPPORT. Statements for all commands, made command by command. -/

namespace Sys2Proof.Laws.Encoding

/-- The command's word is in a row of the opcode table, and that row reads the command back from its fields
(30_encoding.md R62, R65). -/
def Statement (i : Instr) : Prop :=
  ∃ r ∈ rows, encode i &&& r.mask = r.pattern ∧ r.build (idxField (encode i)) (immField (encode i)) = i

theorem of_row {i : Instr} (n : Nat) (r : Row) (hr : rows[n]? = some r) (idx : Octet) (imm : Half)
    (hw : encode i = c32 r.op idx imm) (hidx : r.usesIdx = false → idx = 0#8) (himm : r.usesImm = false → imm = 0#16)
    (hb : r.build idx imm = i) : Statement i := by
  have hmem : r ∈ rows := List.mem_of_getElem? hr
  refine ⟨r, hmem, (row_matches_iff hmem _).mpr ?_, ?_⟩
  · simpa [hw] using ⟨hidx, himm⟩
  · simpa [hw] using hb

theorem schInit : Statement .schInit := of_row 0 _ rfl 0#8 0#16 rfl (by simp) (by simp) rfl
theorem schSetper (idx : Octet) (period : Half) : Statement (.schSetper idx period) :=
  of_row 1 _ rfl idx period rfl (by simp) (by simp) rfl
theorem schTick : Statement .schTick := of_row 2 _ rfl 0#8 0#16 rfl (by simp) (by simp) rfl
theorem schRddesc (idx : Octet) : Statement (.schRddesc idx) := of_row 3 _ rfl idx 0#16 rfl (by simp) (by simp) rfl
theorem schRdper (idx : Octet) : Statement (.schRdper idx) := of_row 4 _ rfl idx 0#16 rfl (by simp) (by simp) rfl
theorem schRdready : Statement .schRdready := of_row 5 _ rfl 0#8 0#16 rfl (by simp) (by simp) rfl
theorem dspStep : Statement .dspStep := of_row 6 _ rfl 0#8 0#16 rfl (by simp) (by simp) rfl
theorem dspDone : Statement .dspDone := of_row 7 _ rfl 0#8 0#16 rfl (by simp) (by simp) rfl
theorem dspRdstat : Statement .dspRdstat := of_row 8 _ rfl 0#8 0#16 rfl (by simp) (by simp) rfl
theorem rbClear : Statement .rbClear := of_row 9 _ rfl 0#8 0#16 rfl (by simp) (by simp) rfl
theorem rbPush (value : Half) : Statement (.rbPush value) := of_row 10 _ rfl 0#8 value rfl (by simp) (by simp) rfl
theorem rbAvg : Statement .rbAvg := of_row 11 _ rfl 0#8 0#16 rfl (by simp) (by simp) rfl
theorem rbLast : Statement .rbLast := of_row 12 _ rfl 0#8 0#16 rfl (by simp) (by simp) rfl
theorem rbStat : Statement .rbStat := of_row 13 _ rfl 0#8 0#16 rfl (by simp) (by simp) rfl
theorem fmtVal (value : Half) : Statement (.fmtVal value) := of_row 14 _ rfl 0#8 value rfl (by simp) (by simp) rfl
theorem fmtAvg : Statement .fmtAvg := of_row 15 _ rfl 0#8 0#16 rfl (by simp) (by simp) rfl
theorem fmtRdbuf : Statement .fmtRdbuf := of_row 16 _ rfl 0#8 0#16 rfl (by simp) (by simp) rfl
theorem ctlRdstatus : Statement .ctlRdstatus := of_row 17 _ rfl 0#8 0#16 rfl (by simp) (by simp) rfl
theorem ctlClrerr : Statement .ctlClrerr := of_row 18 _ rfl 0#8 0#16 rfl (by simp) (by simp) rfl

end Sys2Proof.Laws.Encoding
end

