-- ==== Sys2Proof/Laws/Step.lean ====
section
/-! SUPPORT. What one command, one operation and one run can do: the inversion lemmas later proofs split on. -/

namespace Sys2Proof.Machine

variable {s t : State}

/-! ### One command -/

/-- All the effects of `exec`: for each command the states it can answer, with the conditions under which it does.
A refusal names no command here; `RefusalCause` of Safety.lean says which causes apply. -/
inductive Effect (s : State) : Instr → State → Prop where
  | refused (i : Instr) (e : CmdError) : Effect s i (s.raiseCmdError e)
  | read (i : Instr) (w : Word) : ReadsOnly i → Effect s i (s.respond true w)
  | init : Effect s .schInit ({ s with table := s.table.map Descr.init }.respond true 0#32)
  | setper (idx : Octet) (period : Half) : idx.toNat < s.nTask → period ≠ 0#16 →
      Effect s (.schSetper idx period) ((s.setPer idx.toNat period).respond true 0#32)
  | tick : Effect s .schTick (s.tickAll.respond true 0#32)
  | run : s.busy = false → s.stAt s.cur.toNat = some .ready → Effect s .dspStep s.runVisit
  | idle : s.busy = false → s.stAt s.cur.toNat ≠ some .ready → Effect s .dspStep s.idleVisit
  | done : s.busy = true → Effect s .dspDone s.endHandler
  | clear : Effect s .rbClear ({ s with cnt := 0#8, wix := 0#8 }.respond true 0#32)
  | push (v : Half) : Effect s (.rbPush v) ((s.push v).respond true 0#32)
  | format (i : Instr) (v : Nat) : ((∃ x, i = .fmtVal x) ∨ i = .fmtAvg) → v ≤ 99 →
      Effect s i ({ s with fbuf := fmtText v }.respond true (fmtText v))
  | clrerr : Effect s .ctlClrerr ({ s with status := 0#32 }.respond true s.status)

/-- Formatting refuses above 99 and else writes FBUF (43_formatter.md R115, R119). -/
theorem format_cases (s : State) (v : Nat) :
    (99 < v ∧ s.format v = s.raiseCmdError .range) ∨
      (v ≤ 99 ∧ s.format v = { s with fbuf := fmtText v }.respond true (fmtText v)) := by
  unfold State.format
  split
  · exact .inl ⟨‹_›, rfl⟩
  · exact .inr ⟨Nat.le_of_not_lt ‹_›, rfl⟩

/-- DSP_STEP while BUSY (41_dispatcher.md R91). -/
theorem exec_dspStep_of_busy (hb : s.busy = true) : exec .dspStep s = .next (s.raiseCmdError .seq) := by
  simp [exec, execDspStep, hb]

/-- DSP_STEP on a READY descriptor (R91). -/
theorem exec_dspStep_of_ready (hb : s.busy = false) (hr : s.stAt s.cur.toNat = some .ready) :
    exec .dspStep s = .next s.runVisit := by
  simp [exec, execDspStep, hb, hr]

/-- DSP_STEP on a descriptor that is not READY (R91). -/
theorem exec_dspStep_of_idle (hb : s.busy = false) (hr : s.stAt s.cur.toNat ≠ some .ready) :
    exec .dspStep s = .next s.idleVisit := by
  simp [exec, execDspStep, hb, hr]

/-- DSP_DONE while BUSY (R94). -/
theorem exec_dspDone_of_busy (hb : s.busy = true) : exec .dspDone s = .next s.endHandler := by
  simp [exec, execDspDone, hb]

/-- DSP_DONE while not BUSY (R94). -/
theorem exec_dspDone_of_idle (hb : s.busy = false) : exec .dspDone s = .next (s.raiseCmdError .seq) := by
  simp [exec, execDspDone, hb]

/-- Every command answers a next state (60_exceptions.md R149). -/
theorem exec_next (i : Instr) (s : State) : ∃ t, exec i s = .next t := by
  cases i <;> exact ⟨_, rfl⟩

/-- Every next state of a command is one of its effects. -/
theorem exec_effect {i : Instr} (h : exec i s = .next t) : Effect s i t := by
  cases i with
  | schInit => cases h; exact .init
  | schSetper idx period =>
    cases h
    rcases withDescr_cases s idx (fun _ => if period = 0#16 then s.raiseCmdError .badPer
      else (s.setPer idx.toNat period).respond true 0#32) with ⟨-, h⟩ | ⟨d, hlt, -, h⟩
    · rw [h]; exact .refused _ _
    · rw [h]
      split
      · exact .refused _ _
      · exact .setper idx period hlt ‹_›
  | schTick => cases h; exact .tick
  | schRddesc idx =>
    cases h
    rcases withDescr_cases s idx (fun d => s.respond true (descrWord d)) with ⟨-, h⟩ | ⟨d, -, -, h⟩ <;> rw [h]
    · exact .refused _ _
    · exact .read _ _ (.inr ⟨idx, .inl rfl⟩)
  | schRdper idx =>
    cases h
    rcases withDescr_cases s idx (fun d => s.respond true (halfWord d.per)) with ⟨-, h⟩ | ⟨d, -, -, h⟩ <;> rw [h]
    · exact .refused _ _
    · exact .read _ _ (.inr ⟨idx, .inr rfl⟩)
  | schRdready => cases h; exact .read _ _ (.inl (by decide))
  | dspStep =>
    cases h
    split
    · exact .refused _ _
    · split
      · exact .run (by simpa using ‹¬ s.busy = true›) ‹_›
      · exact .idle (by simpa using ‹¬ s.busy = true›) ‹_›
  | dspDone =>
    cases h
    split
    · exact .done ‹_›
    · exact .refused _ _
  | dspRdstat => cases h; exact .read _ _ (.inl (by decide))
  | rbClear => cases h; exact .clear
  | rbPush v => cases h; exact .push v
  | rbAvg => cases h; exact .read _ _ (.inl (by decide))
  | rbLast => cases h; exact .read _ _ (.inl (by decide))
  | rbStat => cases h; exact .read _ _ (.inl (by decide))
  | fmtVal v =>
    cases h
    rcases format_cases s v.toNat with ⟨-, h⟩ | ⟨hv, h⟩ <;> rw [h]
    · exact .refused _ _
    · exact .format _ _ (.inl ⟨v, rfl⟩) hv
  | fmtAvg =>
    cases h
    rcases format_cases s s.average with ⟨-, h⟩ | ⟨hv, h⟩ <;> rw [h]
    · exact .refused _ _
    · exact .format _ _ (.inr rfl) hv
  | fmtRdbuf => cases h; exact .read _ _ (.inl (by decide))
  | ctlRdstatus => cases h; exact .read _ _ (.inl (by decide))
  | ctlClrerr => cases h; exact .clrerr

/-! ### One operation -/

@[simp] theorem serve_tickIn (s : State) : serve .tickIn s = .next s.tickAll := rfl

theorem serveCommand_of_decode {w : Word} {i : Instr} (h : decode w = .ok i) (s : State) :
    serveCommand w s = exec i s := by simp [serveCommand, h]

theorem serveCommand_of_illegal {w : Word} {r : IllegalWord} (h : decode w = .error r) (s : State) :
    serveCommand w s = .next (s.raiseCmdError .ill) := by simp [serveCommand, h, serveIllegal]

/-- All an operation can do: a tick, an ILL refusal, or a command. -/
theorem serve_cases (op : Op) (s : State) :
    (op = .tickIn ∧ serve op s = .next s.tickAll) ∨
      (∃ w r, op = .command w ∧ decode w = .error r ∧ serve op s = .next (s.raiseCmdError .ill)) ∨
      ∃ w i, op = .command w ∧ decode w = .ok i ∧ serve op s = exec i s := by
  cases op with
  | tickIn => exact .inl ⟨rfl, rfl⟩
  | command w =>
    cases h : decode w with
    | error r => exact .inr (.inl ⟨w, r, rfl, h, serveCommand_of_illegal h s⟩)
    | ok i => exact .inr (.inr ⟨w, i, rfl, h, serveCommand_of_decode h s⟩)

/-- Every operation answers a next state (R149). -/
theorem serve_next (op : Op) (s : State) : ∃ t, serve op s = .next t := by
  rcases serve_cases op s with ⟨-, h⟩ | ⟨_, _, -, -, h⟩ | ⟨_, i, -, -, h⟩
  · exact ⟨_, h⟩
  · exact ⟨_, h⟩
  · simpa only [h] using exec_next i s

@[simp] theorem instr_tickIn : Op.tickIn.instr = none := rfl

theorem instr_of_decode {w : Word} {i : Instr} (h : decode w = .ok i) : (Op.command w).instr = some i := by
  simp [Op.instr, h]

theorem instr_of_illegal {w : Word} {r : IllegalWord} (h : decode w = .error r) : (Op.command w).instr = none := by
  simp [Op.instr, h]

/-- The next state of an operation: a tick, a refused word, or an effect of the command it is. -/
theorem serve_effect {op : Op} (h : serve op s = .next t) :
    (op = .tickIn ∧ t = s.tickAll) ∨ (op.instr = none ∧ op ≠ .tickIn ∧ t = s.raiseCmdError .ill) ∨
      ∃ i, op.instr = some i ∧ op ≠ .tickIn ∧ Effect s i t := by
  rcases serve_cases op s with ⟨ho, hs⟩ | ⟨w, r, ho, hd, hs⟩ | ⟨w, i, ho, hd, hs⟩
  · rw [hs] at h
    cases h
    exact .inl ⟨ho, rfl⟩
  · rw [hs] at h
    cases h
    exact .inr (.inl ⟨ho ▸ instr_of_illegal hd, by simp [ho], rfl⟩)
  · rw [hs] at h
    exact .inr (.inr ⟨i, ho ▸ instr_of_decode hd, by simp [ho], exec_effect h⟩)

/-! ### Runs -/

@[simp] theorem runOps_nil (s : State) : runOps [] s = .next s := rfl

theorem runOps_cons {op : Op} (h : serve op s = .next t) (ops : List Op) : runOps (op :: ops) s = runOps ops t := by
  simp [runOps, h]

/-- Every run of operations answers a next state. -/
theorem runOps_next (ops : List Op) (s : State) : ∃ t, runOps ops s = .next t := by
  induction ops generalizing s with
  | nil => exact ⟨s, rfl⟩
  | cons op ops ih =>
    obtain ⟨t, ht⟩ := serve_next op s
    simpa only [runOps_cons ht] using ih t

theorem runOps_append {ops : List Op} (h : runOps ops s = .next t) (later : List Op) :
    runOps (ops ++ later) s = runOps later t := by
  induction ops generalizing s with
  | nil => cases h; rfl
  | cons op ops ih =>
    obtain ⟨u, hu⟩ := serve_next op s
    rw [runOps_cons hu] at h
    rw [List.cons_append, runOps_cons hu]
    exact ih h

/-- A property every operation keeps is kept by every run. -/
theorem runOps_keeps {P : State → Prop} (keep : ∀ op s t, P s → serve op s = .next t → P t) {ops : List Op}
    (h : runOps ops s = .next t) (hs : P s) : P t := by
  induction ops generalizing s with
  | nil => cases h; exact hs
  | cons op ops ih =>
    obtain ⟨u, hu⟩ := serve_next op s
    rw [runOps_cons hu] at h
    exact ih h (keep op s u hs hu)

end Sys2Proof.Machine
end

