-- ==== Sys2Proof/Laws/Words.lean ====
section
/-! SUPPORT. The fields of the response words (30_encoding.md R69). -/

namespace Sys2Proof.Machine

theorem getLsbD_descrWord (d : Descr) (i : Nat) :
    (descrWord d).getLsbD i =
      if i < 16 then d.el.getLsbD i else if i - 16 < 2 then d.st.code.getLsbD (i - 16) else false := by
  change BitVec.getLsbD (w := 14 + 2 + 16) (0#14 ++ d.st.code ++ d.el) i = _
  simp only [BitVec.getLsbD_append, BitVec.getLsbD_zero]

theorem getLsbD_visitWord (run wrap : Bool) (c : Octet) (i : Nat) :
    (visitWord run wrap c).getLsbD i =
      if i < 8 then c.getLsbD i else if i < 30 then false else if i = 30 then wrap
      else if i = 31 then run else false := by
  change BitVec.getLsbD (w := 1 + 1 + 22 + 8) (BitVec.ofBool run ++ BitVec.ofBool wrap ++ 0#22 ++ c) i = _
  simp only [BitVec.getLsbD_append, BitVec.getLsbD_ofBool, BitVec.getLsbD_zero]
  repeat' split
  all_goals first | rfl | omega | simp_all <;> omega

theorem getLsbD_dispatcherWord (busy : Bool) (cur : Octet) (i : Nat) :
    (dispatcherWord busy cur).getLsbD i =
      if i < 8 then cur.getLsbD i else if i = 8 then busy else false := by
  change BitVec.getLsbD (w := 23 + 1 + 8) (0#23 ++ BitVec.ofBool busy ++ cur) i = _
  simp only [BitVec.getLsbD_append, BitVec.getLsbD_ofBool, BitVec.getLsbD_zero]
  repeat' split
  all_goals first | rfl | omega | simp_all

theorem getLsbD_ringWord (cnt wix : Octet) (i : Nat) :
    (ringWord cnt wix).getLsbD i = if i < 8 then wix.getLsbD i else if i - 8 < 8 then cnt.getLsbD (i - 8) else false := by
  change BitVec.getLsbD (w := 16 + 8 + 8) (0#16 ++ cnt ++ wix) i = _
  simp only [BitVec.getLsbD_append, BitVec.getLsbD_zero]

/-! ### SCH_RDDESC (R84) -/

theorem descrWord_el (d : Descr) : (descrWord d).extractLsb' 0 16 = d.el := by
  refine BitVec.eq_of_getLsbD_eq fun i hi => ?_
  simp [getLsbD_descrWord, hi]

theorem descrWord_st (d : Descr) : (descrWord d).extractLsb' 16 2 = d.st.code := by
  refine BitVec.eq_of_getLsbD_eq fun i hi => ?_
  simp [getLsbD_descrWord, hi]

theorem descrWord_high (d : Descr) : (descrWord d).extractLsb' 18 14 = 0#14 := by
  refine BitVec.eq_of_getLsbD_eq fun i hi => ?_
  simp [getLsbD_descrWord, show ¬ 18 + i < 16 by omega, show ¬ 18 + i - 16 < 2 by omega]

/-! ### DSP_STEP and DSP_DONE (R91, R94) -/

theorem visitWord_run (run wrap : Bool) (c : Octet) : (visitWord run wrap c).getLsbD 31 = run := by
  rw [getLsbD_visitWord]
  rfl

theorem visitWord_wrap (run wrap : Bool) (c : Octet) : (visitWord run wrap c).getLsbD 30 = wrap := by
  rw [getLsbD_visitWord]
  rfl

theorem visitWord_index (run wrap : Bool) (c : Octet) : (visitWord run wrap c).extractLsb' 0 8 = c := by
  refine BitVec.eq_of_getLsbD_eq fun i hi => ?_
  simp [getLsbD_visitWord, hi]

theorem visitWord_middle (run wrap : Bool) (c : Octet) : (visitWord run wrap c).extractLsb' 8 22 = 0#22 := by
  refine BitVec.eq_of_getLsbD_eq fun i hi => ?_
  simp [getLsbD_visitWord, show 8 + i < 30 by omega]

/-! ### DSP_RDSTAT (R97) -/

theorem dispatcherWord_busy (busy : Bool) (cur : Octet) : (dispatcherWord busy cur).getLsbD 8 = busy := by
  rw [getLsbD_dispatcherWord]
  rfl

theorem dispatcherWord_cur (busy : Bool) (cur : Octet) : (dispatcherWord busy cur).extractLsb' 0 8 = cur := by
  refine BitVec.eq_of_getLsbD_eq fun i hi => ?_
  simp [getLsbD_dispatcherWord, hi]

theorem dispatcherWord_high (busy : Bool) (cur : Octet) : (dispatcherWord busy cur).extractLsb' 9 23 = 0#23 := by
  refine BitVec.eq_of_getLsbD_eq fun i hi => ?_
  simp [getLsbD_dispatcherWord, show ¬ 9 + i < 8 by omega, show ¬ 9 + i = 8 by omega]

/-! ### RB_STAT (R110) -/

theorem ringWord_wix (cnt wix : Octet) : (ringWord cnt wix).extractLsb' 0 8 = wix := by
  refine BitVec.eq_of_getLsbD_eq fun i hi => ?_
  simp [getLsbD_ringWord, hi]

theorem ringWord_cnt (cnt wix : Octet) : (ringWord cnt wix).extractLsb' 8 8 = cnt := by
  refine BitVec.eq_of_getLsbD_eq fun i hi => ?_
  simp [getLsbD_ringWord, hi]

theorem ringWord_high (cnt wix : Octet) : (ringWord cnt wix).extractLsb' 16 16 = 0#16 := by
  refine BitVec.eq_of_getLsbD_eq fun i hi => ?_
  simp [getLsbD_ringWord, show ¬ 16 + i < 8 by omega, show ¬ 16 + i - 8 < 8 by omega]

theorem halfWord_toNat (v : Half) : (halfWord v).toNat = v.toNat := by
  have := v.isLt
  simp only [halfWord, BitVec.toNat_setWidth]
  omega

/-! ### FMT_VAL (R115) -/

theorem getLsbD_fmtText (v : Nat) (i : Nat) :
    (fmtText v).getLsbD i =
      if i < 8 then (digitChar (v / 10)).getLsbD i
      else if i - 8 < 8 then (digitChar (v % 10)).getLsbD (i - 8)
      else if i - 8 - 8 < 8 then (0x2E#8).getLsbD (i - 8 - 8) else (0x30#8).getLsbD (i - 8 - 8 - 8) := by
  change BitVec.getLsbD (w := 8 + 8 + 8 + 8) (0x30#8 ++ 0x2E#8 ++ digitChar (v % 10) ++
    digitChar (v / 10)) i = _
  simp only [BitVec.getLsbD_append]

theorem fmtText_tens (v : Nat) : (fmtText v).extractLsb' 0 8 = digitChar (v / 10) := by
  refine BitVec.eq_of_getLsbD_eq fun i hi => ?_
  simp [getLsbD_fmtText, hi]

theorem fmtText_units (v : Nat) : (fmtText v).extractLsb' 8 8 = digitChar (v % 10) := by
  refine BitVec.eq_of_getLsbD_eq fun i hi => ?_
  simp [getLsbD_fmtText, hi]

theorem fmtText_point (v : Nat) : (fmtText v).extractLsb' 16 8 = 0x2E#8 := by
  refine BitVec.eq_of_getLsbD_eq fun i hi => ?_
  simp [getLsbD_fmtText, hi, show ¬ 16 + i < 8 by omega, show ¬ 16 + i - 8 < 8 by omega,
    show 16 + i - 8 - 8 = i by omega]

theorem fmtText_fraction (v : Nat) : (fmtText v).extractLsb' 24 8 = 0x30#8 := by
  refine BitVec.eq_of_getLsbD_eq fun i hi => ?_
  simp [getLsbD_fmtText, hi, show ¬ 24 + i < 8 by omega, show ¬ 24 + i - 8 < 8 by omega,
    show ¬ 24 + i - 8 - 8 < 8 by omega, show 24 + i - 8 - 8 - 8 = i by omega]

theorem digitChar_toNat {d : Nat} (h : d ≤ 9) : (digitChar d).toNat = 0x30 + d := by
  simp only [digitChar, BitVec.toNat_ofNat]
  omega

end Sys2Proof.Machine
end

