-- ==== Sys2Proof/Tests/Slice0.lean ====
section
/-! SUPPORT. Checks of the model on fixed values, and a witness for each obligation that has hypotheses. The expected
results come from spec/95_test_vectors.md (the vector's name, V-…) or from a rule's own example. -/

open Sys2Proof Sys2Proof.Machine

namespace Sys2Proof.Tests

/-! ### Small states -/

/-- A block whose descriptors are (ST, EL, PER), with CUR and BUSY; everything else as after reset. -/
def block (ds : List (TaskState × Half × Half)) (cur : Octet) (busy : Bool) : State :=
  { State.reset with
    table := ds.map (fun d => { st := d.1, el := d.2.1, per := d.2.2 })
    cur := cur
    busy := busy }

/-- A block with these slots, WIX and CNT; everything else as after reset. -/
def ring (slots : List Half) (wix cnt : Octet) : State :=
  { State.reset with slot := slots, wix := wix, cnt := cnt }

/-- The next state, when there is one. -/
def nextOf : Host.Outcome State Fault Refusal → Option State
  | .next t => some t
  | .fault _ => none
  | .refused _ => none

/-- The newest response of the next state: the ok flag and the word. -/
def answerOf (o : Host.Outcome State Fault Refusal) : Option (Bool × Word) :=
  match nextOf o with
  | some t => t.responses.head?.map (fun r => (r.ok, r.word))
  | none => none

/-- ST and EL of each descriptor of the next state. -/
def tableOf (o : Host.Outcome State Fault Refusal) : Option (List (TaskState × Half)) :=
  (nextOf o).map (fun t => t.table.map (fun d => (d.st, d.el)))

/-- The slots, WIX and CNT of the next state. -/
def ringOf (o : Host.Outcome State Fault Refusal) : Option (List Half × Octet × Octet) :=
  (nextOf o).map (fun t => (t.slot, t.wix, t.cnt))

/-- The newest response, and STATUS, of the next state. -/
def refusalOf (o : Host.Outcome State Fault Refusal) : Option ((Bool × Word) × Word) :=
  match answerOf o, nextOf o with
  | some a, some t => some (a, t.status)
  | _, _ => none

/-- V-SCH-10 and V-SCH-11: ST = [READY, STANDBY, READY], EL = [0, 3, 0]. -/
def threeTasks : State := block [(.ready, 0, 2), (.standby, 3, 5), (.ready, 0, 10)] 0 false

/-- R94's example: CUR = 2, BUSY = 1, ST[2] = EXECUTE, NTASK = 3. -/
def running : State := block [(.standby, 0, 2), (.ready, 1, 5), (.execute, 9, 10)] 2 true

/-- Three counters one tick below, at, and above the crossing (V-SCH-1; R81: EL ≥ PER). -/
def counting : State := block [(.standby, 3, 5), (.standby, 4, 5), (.standby, 6, 3)] 1 false

/-- Program 2's buffer after its seventh push: SLOT = [60, 70, 30, 40, 50]. -/
def fullRing : State := ring [60, 70, 30, 40, 50] 2 5

/-- V-RB-4's buffer. -/
def partRing : State := ring [10, 20, 30, 0, 0] 3 3

/-! ### WellFormed refuses what R7 and R70 refuse -/

theorem test_reference_parameters_accepted : Params.reference.wf = true := by decide
theorem test_no_descriptor_refused : Params.wf ⟨[], 5, 1000, none⟩ = false := by decide
theorem test_33_descriptors_refused : Params.wf ⟨List.replicate 33 1, 5, 1000, none⟩ = false := by decide
theorem test_32_descriptors_accepted : Params.wf ⟨List.replicate 32 1, 255, 1000, none⟩ = true := by decide
theorem test_capacity_0_refused : Params.wf ⟨[1], 0, 1000, none⟩ = false := by decide
theorem test_capacity_256_refused : Params.wf ⟨[1], 256, 1000, none⟩ = false := by decide
theorem test_period_0_refused : Params.wf ⟨[1, 0], 5, 1000, none⟩ = false := by decide
theorem test_assembler_operand_bounds :
    (operandsFit 255 65535, operandsFit 256 0, operandsFit 0 65536) = (true, false, false) := by decide

/-! ### Decoding: each row's word, written out from R65, R72 and section 2.1's illegal words -/

theorem test_decode_sch :
    (decode 0b00010000_00000000_0000000000000000#32 = .ok .schInit) ∧
    (decode 0b00010001_00000010_0000000000001010#32 = .ok (.schSetper 2 10)) ∧
    (decode 0b00010010_00000000_0000000000000000#32 = .ok .schTick) ∧
    (decode 0b00010011_00000001_0000000000000000#32 = .ok (.schRddesc 1)) ∧
    (decode 0b00010100_11111111_0000000000000000#32 = .ok (.schRdper 255)) ∧
    (decode 0b00010101_00000000_0000000000000000#32 = .ok .schRdready) := by decide

theorem test_decode_dsp :
    (decode 0b00100000_00000000_0000000000000000#32 = .ok .dspStep) ∧
    (decode 0b00100001_00000000_0000000000000000#32 = .ok .dspDone) ∧
    (decode 0b00100010_00000000_0000000000000000#32 = .ok .dspRdstat) := by decide

theorem test_decode_rb :
    (decode 0b00110000_00000000_0000000000000000#32 = .ok .rbClear) ∧
    (decode 0b00110001_00000000_0000000000011110#32 = .ok (.rbPush 30)) ∧
    (decode 0b00110010_00000000_0000000000000000#32 = .ok .rbAvg) ∧
    (decode 0b00110011_00000000_0000000000000000#32 = .ok .rbLast) ∧
    (decode 0b00110100_00000000_0000000000000000#32 = .ok .rbStat) := by decide

theorem test_decode_fmt_ctl :
    (decode 0b01000000_00000000_0000000000010111#32 = .ok (.fmtVal 23)) ∧
    (decode 0b01000001_00000000_0000000000000000#32 = .ok .fmtAvg) ∧
    (decode 0b01000010_00000000_0000000000000000#32 = .ok .fmtRdbuf) ∧
    (decode 0b11110000_00000000_0000000000000000#32 = .ok .ctlRdstatus) ∧
    (decode 0b11110001_00000000_0000000000000000#32 = .ok .ctlClrerr) := by decide

/-- V-DEC-1 to V-DEC-3: an OP in no row. -/
theorem test_undefined_op :
    [0x00000000#32, 0xFF000000#32, 0x16000000#32].map decode = List.replicate 3 (.error .undefinedOp) := by decide

/-- V-DEC-4 to V-DEC-9: an unused field that is not zero. -/
theorem test_nonzero_unused_field :
    [0x10000001#32, 0x12000100#32, 0x13000001#32, 0x20000001#32, 0x31010000#32, 0xF1000001#32].map decode =
      List.replicate 6 (.error .nonzeroUnusedField) := by decide

/-- V-DEC-5: a malformed SCH_TICK is refused and applies no tick. -/
theorem test_malformed_tick_applies_no_tick :
    refusalOf (serveCommand 0x12000100#32 threeTasks) = some ((false, 1), 0x00000101) ∧
    tableOf (serveCommand 0x12000100#32 threeTasks) = some [(.ready, 0), (.standby, 3), (.ready, 0)] := by decide

theorem test_table_word : decodeTableWord 32 0x1102000A = some (.schSetper 2 10) ∧ decodeTableWord 32 0 = none := by
  decide

/-! ### One step of each command -/

/-- V-SCH-10. -/
theorem test_sch_init :
    tableOf (exec .schInit threeTasks) = some [(.standby, 0), (.standby, 0), (.standby, 0)] ∧
    answerOf (exec .schInit threeTasks) = some (true, 0) := by decide

/-- V-SCH-6, and the new period is IDX's. -/
theorem test_sch_setper :
    (nextOf (exec (.schSetper 2 65535) threeTasks)).map (fun t => t.table.map Descr.per) = some [2, 5, 65535] := by decide

/-- V-SCH-7 and V-SCH-8: BADPER; BADIDX before BADPER. -/
theorem test_sch_setper_refusals :
    refusalOf (exec (.schSetper 1 0) State.reset) = some ((false, 3), 0x00000304) ∧
    refusalOf (exec (.schSetper 40 0) State.reset) = some ((false, 2), 0x00000202) := by decide

/-- V-SCH-1: all three cross; R81: EL ≥ PER crosses, EL below PER - 1 counts. -/
theorem test_sch_tick :
    tableOf (exec .schTick (block [(.standby, 1, 2), (.standby, 4, 5), (.standby, 9, 10)] 0 false)) =
      some [(.ready, 0), (.ready, 0), (.ready, 0)] ∧
    tableOf (serve .tickIn counting) = some [(.standby, 4), (.ready, 0), (.ready, 0)] := by decide

/-- R77: the largest period crosses from EL = 65534, and no EL wraps. -/
theorem test_sch_tick_at_the_largest_period :
    tableOf (exec .schTick (block [(.execute, 65534, 65535), (.standby, 65533, 65535)] 0 true)) =
      some [(.ready, 0), (.standby, 65534)] := by decide

/-- V-SCH-9, and R84's example. -/
theorem test_sch_rddesc :
    answerOf (exec (.schRddesc 3) threeTasks) = some (false, 2) ∧
    answerOf (exec (.schRddesc 2) running) = some (true, 0x00020009) := by decide

/-- R86: PER of IDX; V-SCH-9's BADIDX. -/
theorem test_sch_rdper :
    answerOf (exec (.schRdper 1) threeTasks) = some (true, 5) ∧
    refusalOf (exec (.schRdper 3) threeTasks) = some ((false, 2), 0x00000202) := by decide

/-- V-SCH-11. -/
theorem test_sch_rdready : answerOf (exec .schRdready threeTasks) = some (true, 0x00000005) := by decide

/-- V-SCH-12: 32 READY descriptors fill the word. -/
theorem test_sch_rdready_32 :
    answerOf (exec .schRdready (block (List.replicate 32 (.ready, 0, 1)) 0 false)) = some (true, 0xFFFFFFFF) := by decide

/-- V-DSP-1. -/
theorem test_dsp_step_run :
    answerOf (exec .dspStep threeTasks) = some (true, 0x80000000) ∧
    tableOf (exec .dspStep threeTasks) = some [(.execute, 0), (.standby, 3), (.ready, 0)] ∧
    (nextOf (exec .dspStep threeTasks)).map (fun t => (t.busy, t.cur)) = some (true, 0) := by decide

/-- V-DSP-3: an idle visit of the last index wraps. V-DSP-5: SEQ while BUSY. -/
theorem test_dsp_step_idle_and_busy :
    answerOf (exec .dspStep (block [(.standby, 0, 3)] 0 false)) = some (true, 0x40000000) ∧
    refusalOf (exec .dspStep running) = some ((false, 4), 0x00000408) := by decide

/-- V-DSP-2. -/
theorem test_dsp_done :
    answerOf (exec .dspDone running) = some (true, 0x40000002) ∧
    tableOf (exec .dspDone running) = some [(.standby, 0), (.ready, 1), (.standby, 9)] ∧
    (nextOf (exec .dspDone running)).map (fun t => (t.busy, t.cur)) = some (false, 0) := by decide

/-- V-DSP-6. -/
theorem test_dsp_done_idle : refusalOf (exec .dspDone threeTasks) = some ((false, 4), 0x00000408) := by decide

/-- R97's example, with CUR = 2. -/
theorem test_dsp_rdstat : answerOf (exec .dspRdstat running) = some (true, 0x00000102) := by decide

/-- R102's example: the slots keep their contents. -/
theorem test_rb_clear : ringOf (exec .rbClear fullRing) = some ([60, 70, 30, 40, 50], 0, 0) := by decide

/-- V-RB-2, and R111: a push into a full buffer overwrites the oldest value. -/
theorem test_rb_push :
    ringOf (exec (.rbPush 10) (ring [0, 0, 0, 0, 0] 0 0)) = some ([10, 0, 0, 0, 0], 1, 1) ∧
    ringOf (exec (.rbPush 80) fullRing) = some ([60, 70, 80, 40, 50], 3, 5) := by decide

/-- R103: WIX wraps as CNT reaches CAP. -/
theorem test_rb_push_wraps :
    ringOf (exec (.rbPush 65535) (ring [1, 2, 3, 4, 0] 4 4)) = some ([1, 2, 3, 4, 65535], 0, 5) := by decide

/-- V-RB-5 and V-RB-3 (truncated). -/
theorem test_rb_avg :
    answerOf (exec .rbAvg fullRing) = some (true, 50) ∧
    answerOf (exec .rbAvg (ring [1, 2, 9, 9, 9] 2 2)) = some (true, 1) := by decide

/-- V-RB-6 and V-RB-7: the sum does not wrap. -/
theorem test_rb_avg_large :
    answerOf (exec .rbAvg (ring [65535, 65535, 65535, 65535, 65535] 0 5)) = some (true, 0xFFFF) ∧
    answerOf (exec .rbAvg (ring [0, 65535, 65535, 65535, 65535] 1 5)) = some (true, 0xCCCC) := by decide

/-- V-RB-4, V-RB-5. -/
theorem test_rb_last :
    answerOf (exec .rbLast partRing) = some (true, 30) ∧ answerOf (exec .rbLast fullRing) = some (true, 70) := by decide

/-- R108: an empty window answers 0, whatever the slots hold (V-RB-9's slots). -/
theorem test_rb_last_empty : answerOf (exec .rbLast (ring [6, 2, 3, 4, 5] 0 0)) = some (true, 0) := by decide

/-- V-RB-5 (R110's example). -/
theorem test_rb_stat : answerOf (exec .rbStat fullRing) = some (true, 0x00000502) := by decide

/-- V-FMT-3, R115's example. -/
theorem test_fmt_val :
    answerOf (exec (.fmtVal 9) State.reset) = some (true, 0x302E3930) ∧
    (nextOf (exec (.fmtVal 23) State.reset)).map (fun t => t.fbuf) = some 0x302E3332 := by decide

/-- V-FMT-6: FBUF is kept. -/
theorem test_fmt_val_refusal :
    refusalOf (exec (.fmtVal 100) { State.reset with fbuf := 0x302E3939 }) = some ((false, 5), 0x00000510) ∧
    (nextOf (exec (.fmtVal 100) { State.reset with fbuf := 0x302E3939 })).map (fun t => t.fbuf) = some 0x302E3939 := by
  decide

/-- V-FMT-10 and V-FMT-9: mean 99; window [150]. -/
theorem test_fmt_avg :
    answerOf (exec .fmtAvg (ring [150, 48, 0, 0, 0] 2 2)) = some (true, 0x302E3939) ∧
    refusalOf (exec .fmtAvg (ring [150, 0, 0, 0, 0] 1 1)) = some ((false, 5), 0x00000510) := by decide

/-- V-FMT-8. -/
theorem test_fmt_avg_empty : answerOf (exec .fmtAvg State.reset) = some (true, 0x302E3030) := by decide

/-- R121's example. -/
theorem test_fmt_rdbuf :
    answerOf (exec .fmtRdbuf { State.reset with fbuf := 0x302E3034 }) = some (true, 0x302E3034) := by decide

/-- R124's example. -/
theorem test_ctl_rdstatus :
    answerOf (exec .ctlRdstatus { State.reset with status := 0x00000511 }) = some (true, 0x00000511) := by decide

/-- V-CTL-3. -/
theorem test_ctl_clrerr :
    answerOf (exec .ctlClrerr { State.reset with status := 0x0000011B }) = some (true, 0x0000011B) ∧
    (nextOf (exec .ctlClrerr { State.reset with status := 0x0000011B })).map (fun t => t.status) = some 0 := by decide

/-- Program 4: the next refusal keeps the earlier bits and replaces LASTERR. -/
theorem test_refusals_accumulate :
    refusalOf (serveCommand 0x21000000#32 { State.reset with status := 0x00000107 }) = some ((false, 4), 0x0000040F) := by
  decide

/-! ### The assembler's lines (R70, R71) -/

theorem test_assembler :
    assemble 3 ["SCH_SETPER 2, 10", "TICK ×2", "NOP ; nothing", "RB_PUSH 0x1E"] =
      .ok [.command 0x1102000A, .tickIn, .tickIn, .command 0xF0000000, .command 0x3100001E] := by decide

theorem test_assembler_config :
    assembleLine 2 (.config [2, 5]) = .ok [.command 0x11000002, .command 0x11010005, .command 0x10000000] := by decide

theorem test_assembler_refuses :
    assembleCommand "SCH_RDDESC" [256] = .error .operandTooLarge ∧
    assembleCommand "RB_PUSH" [65536] = .error .operandTooLarge ∧
    assembleCommand "SCH_SETPER" [40, 0] = .ok 0x11280000 := by decide

/-! ### States that meet the invariant -/

/-- Enough for the invariant, for a state whose STATUS and FBUF are as after reset. -/
theorem inv_of_checks {s : State}
    (h : (1 ≤ s.nTask ∧ s.nTask ≤ 32) ∧ (1 ≤ s.cap ∧ s.cap ≤ 255) ∧ (∀ d ∈ s.table, d.per ≠ 0#16) ∧
      (∀ d ∈ s.table, d.el.toNat ≤ 65534) ∧ s.cur.toNat < s.nTask ∧
      (∀ i < s.nTask, s.stAt i = some .execute → s.busy = true ∧ i = s.cur.toNat) ∧ s.wix.toNat < s.cap ∧
      s.cnt.toNat ≤ s.cap ∧ (s.cnt.toNat < s.cap → s.wix = s.cnt) ∧ s.status = 0#32 ∧ s.fbuf = 0#32) : s.Inv where
  nTask_range := h.1
  cap_range := h.2.1
  per_pos := h.2.2.1
  el_le := h.2.2.2.1
  cur_lt := h.2.2.2.2.1
  execute_only := fun i hi => h.2.2.2.2.2.1 i (by
    rcases Nat.lt_or_ge i s.nTask with hlt | hge
    · exact hlt
    · have hnone : s.table[i]? = none := List.getElem?_eq_none hge
      simp [State.stAt, hnone] at hi) hi
  wix_lt := h.2.2.2.2.2.2.1
  cnt_le := h.2.2.2.2.2.2.2.1
  partial_window := h.2.2.2.2.2.2.2.2.1
  status_legal := by
    have hs := h.2.2.2.2.2.2.2.2.2.1
    exact ⟨by rw [hs]; decide, .inl hs⟩
  fbuf_legal := .inl h.2.2.2.2.2.2.2.2.2.2

theorem inv_reset : State.reset.Inv := inv_of_checks (by decide)
theorem inv_threeTasks : threeTasks.Inv := inv_of_checks (by decide)
theorem inv_running : running.Inv := inv_of_checks (by decide)
theorem inv_counting : counting.Inv := inv_of_checks (by decide)
theorem inv_fullRing : fullRing.Inv := inv_of_checks (by decide)
theorem inv_partRing : partRing.Inv := inv_of_checks (by decide)

/-- The invariant with a refusal recorded and a text in FBUF. -/
theorem inv_after_refusal : ({ running with status := 0x00000408#32, fbuf := fmtText 99 } : State).Inv :=
  { inv_running with
    status_legal := ⟨by decide, .inr ⟨.seq, by decide, by decide⟩⟩
    fbuf_legal := .inr ⟨99, by decide, rfl⟩ }

/-! ### Witnesses: for each obligation with hypotheses, states and operands that meet them, clause by clause -/

theorem witness_DecodedWordIsItsEncoding : decode 0x11FFFFFF#32 = .ok (.schSetper 255 65535) := by decide

theorem witness_LegalWordsMatchExactlyOneRow :
    (∃ r ∈ rows, 0x11FFFFFF#32 &&& r.mask = r.pattern) ∧ ∃ r ∈ rows, 0x3100FFFF#32 &&& r.mask = r.pattern :=
  ⟨⟨⟨"SCH_SETPER", 0x11#8, true, true, 0x11000000#32, 0xFF000000#32, fun idx imm => .schSetper idx imm⟩,
      by simp [rows, schRows], by decide⟩,
    ⟨⟨"RB_PUSH", 0x31#8, false, true, 0x31000000#32, 0xFFFF0000#32, fun _ imm => .rbPush imm⟩,
      by simp [rows, rbRows], by decide⟩⟩

/-- An OP just past a group, an IDX of 1 and an IMM of 1 where the row uses none, and a word with both fields full. -/
theorem witness_IllegalWordsAreRefusedWithCode1 :
    opField 0x16000000#32 = 0x16#8 ∧
    (opField 0x31010000#32 = 0x31#8 ∧ idxField 0x31010000#32 = 1) ∧
    (opField 0x13000001#32 = 0x13#8 ∧ immField 0x13000001#32 = 1) ∧
    (opField 0x11FFFFFF#32 = 0x11#8 ∧ idxField 0x11FFFFFF#32 = 255 ∧ immField 0x11FFFFFF#32 = 65535) := by decide

theorem witness_StepRunsTheDecodedCommand :
    (threeTasks.offerCommand 0x20000000#32).inputs = .command 0x20000000#32 :: threeTasks.inputs ∧
    decode 0x20000000#32 = .ok .dspStep := by decide

theorem witness_TickPulseIsSchTickWithoutItsResponse :
    ({ counting with inputs := [.tickIn] } : State).inputs = .tickIn :: [] ∧
    (counting.offerCommand 0x12000000#32).inputs = .command 0x12000000#32 :: [] := by decide

theorem witness_EveryOperationHasAStep : State.reset.inputs = [] := by decide

theorem witness_EachRefusalHasItsOneCause :
    RefusalCause .ill 0x16000000#32 State.reset ∧ RefusalCause .badIdx 0x11030000#32 State.reset ∧
    RefusalCause .badPer 0x11020000#32 State.reset ∧ RefusalCause .seq 0x20000000#32 running ∧
    RefusalCause .seq 0x21000000#32 State.reset ∧ RefusalCause .range 0x40000064#32 State.reset ∧
    RefusalCause .range 0x41000000#32 (ring [150, 0, 0, 0, 0] 1 1) :=
  ⟨⟨.undefinedOp, by decide⟩, ⟨3, by decide, .inl ⟨0, by decide⟩⟩, ⟨2, by decide, by decide⟩, .inl (by decide),
    .inr (by decide), .inl ⟨100, by decide, by decide⟩, .inr (by decide)⟩

theorem witness_RefusalsArePrecise :
    ∃ t, serveCommand 0x21000000#32 threeTasks = .next t ∧ Answers threeTasks t false 4#32 := ⟨_, rfl, rfl⟩

theorem witness_SomeCommandsAreNeverRefused :
    Instr.ctlClrerr ∈ ([.schInit, .schTick, .schRdready, .dspRdstat, .rbClear, .rbAvg, .rbLast, .rbStat, .fmtRdbuf,
      .ctlRdstatus, .ctlClrerr] : List Instr) ∧ ∃ v, Instr.rbPush 65535 = .rbPush v :=
  ⟨by decide, _, rfl⟩

/-- A successful operation and a refusal, with a bit already set. -/
theorem witness_ErrorBitsAreSticky :
    (Op.command 0x31000005#32).instr ≠ some .ctlClrerr ∧ (Op.command 0x00000000#32).instr ≠ some .ctlClrerr ∧
    ({ State.reset with status := 0x00000510#32 } : State).status.getLsbD 4 = true ∧
    ∃ t, serve (.command 0x31000005#32) { State.reset with status := 0x00000510#32 } = .next t ∧
      ∀ v, ¬ Answers { State.reset with status := 0x00000510#32 } t false v :=
  ⟨by decide, by decide, by decide, _, rfl, fun v h => by simp [Answers, State.respond, State.push] at h⟩

theorem witness_ResetMeetsTheInvariant :
    Params.wf ⟨List.replicate 32 65535, 255, 1000, none⟩ = true ∧ Params.wf ⟨[1], 1, 1000, none⟩ = true := by decide

theorem witness_StepKeepsTheInvariant :
    State.Inv { running with inputs := [.tickIn, .command 0x21000000#32] } := inv_of_checks (by decide)

theorem witness_ResetEqualsTheInitialisers :
    Params.wf ⟨[2, 5, 10], 5, 1000, none⟩ = true ∧ running.nTask = Params.nTask ⟨[2, 5, 10], 5, 1000, none⟩ ∧
    running.cap = Params.cap ⟨[2, 5, 10], 5, 1000, none⟩ := by decide

theorem witness_SchInitUnderARunningHandler : running.Inv ∧ running.busy = true := ⟨inv_running, rfl⟩

/-- A crossing at EL + 1 = PER, one with EL ≥ PER, and none at EL + 1 = PER - 1. -/
theorem witness_SchTickResult :
    (counting.elAt 1 = some 4 ∧ counting.perAt 1 = some 5) ∧ (counting.elAt 2 = some 6 ∧ counting.perAt 2 = some 3) ∧
    (counting.elAt 0 = some 3 ∧ counting.perAt 0 = some 5) := by decide

/-- The largest EL; an EL right after a tick; and EL ≥ PER before one. -/
theorem witness_TickLeavesElapsedBelowPeriod :
    State.Inv (block [(.standby, 65534, 65535)] 0 false) ∧
    (block [(.standby, 65534, 65535)] 0 false).elAt 0 = some 65534 ∧
    (∃ t, serve .tickIn counting = .next t ∧ t.elAt 0 = some 4 ∧ t.perAt 0 = some 5) ∧
    (counting.Inv ∧ counting.elAt 2 = some 6 ∧ counting.perAt 2 = some 3 ∧ (3 : Half).toNat ≤ (6 : Half).toNat) :=
  ⟨inv_of_checks (by decide), by decide, ⟨_, rfl, by decide⟩, inv_counting, by decide⟩

/-- The first index refused, the last accepted, and periods 0, 1 and 65535. -/
theorem witness_SchSetperResult :
    threeTasks.nTask ≤ (3 : Octet).toNat ∧ ((2 : Octet).toNat < threeTasks.nTask ∧ (0 : Half) = 0#16) ∧
    ((2 : Octet).toNat < threeTasks.nTask ∧ (1 : Half) ≠ 0#16) ∧
    ((0 : Octet).toNat < threeTasks.nTask ∧ (65535 : Half) ≠ 0#16) := by decide

/-- R81 at its boundary: from EL = 3, the period 4 crosses at the next tick and 5 does not. -/
theorem witness_NewPeriodTakesEffectAtTheNextTick :
    (4 : Half) ≠ 0#16 ∧ counting.elAt (0 : Octet).toNat = some 3 ∧ (4 : Half).toNat ≤ (3 : Half).toNat + 1 ∧
    (3 : Half).toNat + 1 < (5 : Half).toNat := by decide

theorem witness_SchRddescResult :
    running.nTask ≤ (3 : Octet).toNat ∧ running.stAt (2 : Octet).toNat = some .execute ∧
    running.elAt (2 : Octet).toNat = some 9 := by decide

theorem witness_SchRdperResult :
    (running.nTask ≤ (3 : Octet).toNat ∧ running.perAt (2 : Octet).toNat = some 10 ∧ running.Inv) ∧
    (∀ op ∈ [Op.tickIn, .command 0x20000000#32, .command 0x10000000#32], ∀ i period,
      op.instr ≠ some (.schSetper i period)) ∧
    Params.reference.periodInit[(2 : Octet).toNat]? = some 1 := by
  refine ⟨⟨by decide, by decide, inv_running⟩, ?_, by decide⟩
  · intro op hop i period h
    have hinstr : ∀ o ∈ [Op.tickIn, .command 0x20000000#32, .command 0x10000000#32],
        o.instr ∈ ([none, some .dspStep, some .schInit] : List (Option Instr)) := by decide
    have hop' := hinstr op hop
    rw [h] at hop'
    simp at hop'

/-- Bits 0 (READY), 1 (not READY) and, at NTASK = 3, bit 3. -/
theorem witness_SchRdreadyResult :
    threeTasks.stAt 0 = some .ready ∧ threeTasks.stAt 1 = some .standby ∧ threeTasks.nTask ≤ 3 := by decide

/-- Ticks, a dispatcher command, a push and another descriptor's SCH_SETPER; P = 5 divides neither, then both. -/
theorem witness_CrossingsComeEveryPeriodTicks :
    counting.Inv ∧ counting.perAt 1 = some 5 ∧
    (∀ op ∈ [Op.tickIn, .tickIn, .command 0x20000000#32, .command 0x12000000#32, .command 0x11000002#32,
      .command 0x31000007#32, .tickIn], op.disturbs 1 = false) ∧
    ticksIn [Op.tickIn, .tickIn, .command 0x20000000#32, .command 0x12000000#32, .command 0x11000002#32,
      .command 0x31000007#32, .tickIn] = 4 :=
  ⟨inv_counting, by decide, by decide, by decide⟩

/-- Two tables with the same ST and different counters, and two states with different ST and BUSY and the same counters. -/
theorem witness_CountersAreIndependentOfDispatch :
    Instr.dspDone ∈ ([.dspStep, .dspDone, .dspRdstat] : List Instr) ∧
    (block [(.execute, 0, 7), (.standby, 9, 9)] 0 true).table.map Descr.st =
      (block [(.execute, 1, 2), (.standby, 4, 5)] 0 true).table.map Descr.st ∧
    SameCounters (block [(.standby, 1, 2), (.ready, 4, 5)] 0 false) (block [(.execute, 1, 2), (.standby, 4, 5)] 0 true) :=
  ⟨by decide, rfl, rfl⟩

/-- One step of each of the four ways. -/
theorem witness_DescriptorsMoveOnlyAlongTheLifecycle :
    (∃ t, serve .tickIn counting = .next t ∧ counting.stAt 1 = some .standby ∧ t.stAt 1 = some .ready) ∧
    (∃ t, serve (.command 0x20000000#32) threeTasks = .next t ∧ threeTasks.stAt 0 = some .ready ∧
      t.stAt 0 = some .execute) ∧
    (∃ t, serve (.command 0x21000000#32) running = .next t ∧ running.stAt 2 = some .execute ∧ t.stAt 2 = some .standby) ∧
    (∃ t, serve (.command 0x10000000#32) running = .next t ∧ running.stAt 1 = some .ready ∧ t.stAt 1 = some .standby) :=
  ⟨⟨_, rfl, by decide⟩, ⟨_, rfl, by decide⟩, ⟨_, rfl, by decide⟩, ⟨_, rfl, by decide⟩⟩

/-- EL + 1 = PER at CUR = 2, in EXECUTE. -/
theorem witness_CrossingDuringItsOwnHandlerIsLost :
    running.Inv ∧ running.busy = true ∧ running.stAt running.cur.toNat = some .execute ∧
    running.elAt running.cur.toNat = some 9 ∧ running.perAt running.cur.toNat = some 10 ∧
    (10 : Half).toNat ≤ (9 : Half).toNat + 1 :=
  ⟨inv_running, by decide⟩

theorem witness_CrossingsOfAReadyDescriptorMerge :
    threeTasks.Inv ∧ threeTasks.busy = false ∧ threeTasks.stAt threeTasks.cur.toNat = some .ready :=
  ⟨inv_threeTasks, by decide⟩

/-- Busy; a run visit; idle visits before and at the last index. -/
theorem witness_DspStepResult :
    (running.Inv ∧ running.busy = true) ∧
    (threeTasks.Inv ∧ threeTasks.busy = false ∧ threeTasks.stAt threeTasks.cur.toNat = some .ready) ∧
    (counting.Inv ∧ counting.busy = false ∧ counting.stAt counting.cur.toNat ≠ some .ready ∧
      counting.cur.toNat + 1 ≠ counting.nTask) ∧
    (State.Inv { counting with cur := 2 } ∧ ({ counting with cur := 2 } : State).cur.toNat + 1 = counting.nTask) :=
  ⟨⟨inv_running, rfl⟩, ⟨inv_threeTasks, by decide⟩, ⟨inv_counting, by decide⟩, inv_of_checks (by decide), by decide⟩

theorem witness_DspDoneResult :
    (threeTasks.Inv ∧ threeTasks.busy = false) ∧
    (running.Inv ∧ running.busy = true ∧ running.cur.toNat + 1 = running.nTask) ∧
    (State.Inv (block [(.execute, 1, 2), (.ready, 4, 5)] 0 true)) :=
  ⟨⟨inv_threeTasks, rfl⟩, ⟨inv_running, by decide⟩, inv_of_checks (by decide)⟩

theorem witness_DspRdstatResult : running.Inv ∧ running.cur.toNat + 1 = running.nTask := ⟨inv_running, by decide⟩

/-- A run with a run visit, a refused DSP_STEP, a DSP_DONE and two idle visits: indices 0, 1, 0 of two. -/
theorem witness_VisitsFollowTheTableOrder :
    State.Inv (block [(.ready, 1, 2), (.standby, 3, 5)] 0 false) ∧
    visits [.command 0x20000000#32, .command 0x20000000#32, .command 0x21000000#32, .command 0x20000000#32,
      .command 0x20000000#32] (block [(.ready, 1, 2), (.standby, 3, 5)] 0 false) = [0, 1, 0] ∧
    visits [.command 0x20000000#32, .command 0x20000000#32, .command 0x20000000#32]
      (block [(.standby, 1, 2), (.standby, 3, 5)] 1 false) = [1, 0, 1] :=
  ⟨inv_of_checks (by decide), by decide, by decide⟩

theorem witness_OnlyDspDoneEndsAHandler :
    running.busy = true ∧
    ∀ op ∈ [Op.tickIn, .command 0x10000000#32, .command 0x20000000#32], op.instr ≠ some .dspDone := by decide

/-- V-DSP-8a's state: PER = [5, 5], four ticks after reset. -/
theorem witness_TickAndStepInEitherOrder :
    State.Inv (block [(.standby, 4, 5), (.standby, 4, 5)] 0 false) ∧
    (block [(.standby, 4, 5), (.standby, 4, 5)] 0 false).busy = false ∧
    (block [(.standby, 4, 5), (.standby, 4, 5)] 0 false).stAt 0 ≠ some .ready ∧
    (block [(.standby, 4, 5), (.standby, 4, 5)] 0 false).elAt 0 = some 4 ∧
    (block [(.standby, 4, 5), (.standby, 4, 5)] 0 false).perAt 0 = some 5 ∧
    (5 : Half).toNat ≤ (4 : Half).toNat + 1 :=
  ⟨inv_of_checks (by decide), by decide⟩

theorem witness_RbClearResult :
    fullRing.Inv ∧ (Op.command 0x310000FF#32).instr ≠ some .rbClear ∧
    Instr.rbLast ∈ ([.rbAvg, .rbLast, .rbStat] : List Instr) := ⟨inv_fullRing, by decide⟩

/-- A partly filled buffer one push from full, and a full one. -/
theorem witness_RbPushResult :
    (State.Inv (ring [1, 2, 3, 4, 0] 4 4) ∧ (ring [1, 2, 3, 4, 0] 4 4).cnt.toNat < (ring [1, 2, 3, 4, 0] 4 4).cap) ∧
    (fullRing.Inv ∧ fullRing.cnt.toNat = fullRing.cap) :=
  ⟨⟨inv_of_checks (by decide), by decide⟩, inv_fullRing, by decide⟩

theorem witness_RbAvgResult :
    (State.reset.Inv ∧ State.reset.cnt = 0#8) ∧ (partRing.Inv ∧ partRing.cnt ≠ 0#8) ∧
    (fullRing.Inv ∧ fullRing.cnt ≠ 0#8 ∧ windowSum fullRing = 250) :=
  ⟨⟨inv_reset, by decide⟩, ⟨inv_partRing, by decide⟩, inv_fullRing, by decide⟩

/-- Empty; and the most recent push in the last slot (WIX = 0). -/
theorem witness_RbLastResult :
    (State.reset.Inv ∧ State.reset.cnt = 0#8) ∧
    (State.Inv (ring [1, 2, 3, 4, 65535] 0 5) ∧ (ring [1, 2, 3, 4, 65535] 0 5).cnt ≠ 0#8 ∧
      (ring [1, 2, 3, 4, 65535] 0 5).slotAt 4 = some 65535) :=
  ⟨⟨inv_reset, by decide⟩, inv_of_checks (by decide), by decide⟩

/-- CAP pushes with a tick, an RB_AVG and a refused word between and after them, and no RB_CLEAR. -/
theorem witness_RbStatResult :
    fullRing.Inv ∧
    (∀ op ∈ [Op.command 0x31000001#32, .command 0x31000002#32, .tickIn, .command 0x31000003#32,
      .command 0x32000000#32, .command 0x31000004#32, .command 0x31000005#32, .command 0x00000000#32],
      op.instr ≠ some .rbClear) ∧
    (pushesIn [Op.command 0x31000001#32, .command 0x31000002#32, .tickIn, .command 0x31000003#32,
      .command 0x32000000#32, .command 0x31000004#32, .command 0x31000005#32, .command 0x00000000#32]).length =
      fullRing.cap :=
  ⟨inv_fullRing, by decide, by decide⟩

theorem witness_PushKeepsTheMostRecentValues :
    fullRing.Inv ∧ fullRing.cnt.toNat = fullRing.cap ∧ fullRing.window = [70, 60, 50, 40, 30] :=
  ⟨inv_fullRing, by decide⟩

/-- Six pushes into five slots, with a tick and an RB_AVG between; and a run with no push. -/
theorem witness_AverageIsTheMeanOfTheLastPushes :
    fullRing.Inv ∧
    (∀ op ∈ [Op.command 0x31000001#32, .command 0x31000002#32, .tickIn, .command 0x31000003#32,
      .command 0x32000000#32, .command 0x31000004#32, .command 0x31000005#32, .command 0x31000006#32],
      op.instr ≠ some .rbClear) ∧
    pushesIn [Op.command 0x31000001#32, .command 0x31000002#32, .tickIn, .command 0x31000003#32,
      .command 0x32000000#32, .command 0x31000004#32, .command 0x31000005#32, .command 0x31000006#32] =
      [6, 5, 4, 3, 2, 1] :=
  ⟨inv_fullRing, by decide, by decide⟩

/-- The largest sum: CAP = 255 slots of 65535. -/
theorem witness_AverageNeedsA24BitAccumulator :
    State.Inv (ring (List.replicate 255 65535) 0 255) ∧ (ring (List.replicate 255 65535) 0 255).cnt ≠ 0#8 := by
  have hcap : (ring (List.replicate 255 65535) 0 255).cap = 255 := List.length_replicate
  exact ⟨{ inv_reset with
    cap_range := by rw [hcap]; decide
    wix_lt := by rw [hcap]; decide
    cnt_le := by rw [hcap]; decide
    partial_window := fun h => absurd h (by rw [hcap]; decide) }, by decide⟩

/-- The two states differ in the slots 3 and 4, outside the window of three. -/
theorem witness_SlotsOutsideTheWindowAreNeverSeen :
    partRing.Inv ∧ SameButHiddenSlots partRing (ring [10, 20, 30, 77, 88] 3 3) ∧
    partRing ≠ ring [10, 20, 30, 77, 88] 3 3 :=
  ⟨inv_partRing, ⟨rfl, by decide, by decide⟩, by decide⟩

theorem witness_CapacityOneHoldsTheLastPush :
    (State.Inv (ring [9] 0 0) ∧ (ring [9] 0 0).cap = 1 ∧ (ring [9] 0 0).cnt = 0#8) ∧
    (State.Inv (ring [9] 0 1) ∧ (ring [9] 0 1).cap = 1) :=
  ⟨⟨inv_of_checks (by decide), by decide⟩, inv_of_checks (by decide), by decide⟩

theorem witness_FmtValResult : 99 < (100 : Half).toNat ∧ (99 : Half).toNat ≤ 99 ∧ (0 : Half).toNat ≤ 99 := by decide

/-- Averages 100 and 99, and an empty window. -/
theorem witness_FmtAvgResult :
    (State.Inv (ring [150, 50, 0, 0, 0] 2 2) ∧ (ring [150, 50, 0, 0, 0] 2 2).average = 100) ∧
    (State.Inv (ring [150, 49, 0, 0, 0] 2 2) ∧ (ring [150, 49, 0, 0, 0] 2 2).average = 99) ∧
    (State.reset.Inv ∧ State.reset.cnt = 0#8) :=
  ⟨⟨inv_of_checks (by decide), by decide⟩, ⟨inv_of_checks (by decide), by decide⟩, inv_reset, by decide⟩

/-- A refused format, a push and a tick hold no successful format; a format of 99 is one. -/
theorem witness_FmtRdbufResult :
    formats [.command 0x40000064#32, .command 0x31000063#32, .tickIn] (State.resetOf Params.reference (fun _ => 7)) = 0 ∧
    formats [.command 0x31000063#32, .command 0x41000000#32] (State.resetOf Params.reference (fun _ => 7)) = 1 := by
  decide

/-- V-CTL-2's run: an ILL and a RANGE refusal, and no CTL_CLRERR. -/
theorem witness_StatusShowsTheRefusalsSinceTheLastClear :
    State.reset.status = 0#32 ∧
    (∀ op ∈ [Op.command 0x00000000#32, .command 0x40000064#32, .tickIn], op.instr ≠ some .ctlClrerr) ∧
    ∃ t, runOps [.command 0x00000000#32, .command 0x40000064#32, .tickIn] State.reset = .next t ∧
      t.status = 0x00000511#32 :=
  ⟨by decide, by decide, _, rfl, by decide⟩

theorem witness_CtlClrerrResult : opField 0xF1000001#32 = 0xF1#8 ∧ 0xF1000001#32 ≠ 0xF1000000#32 := by decide

theorem witness_ReadingCommandsChangeNothing :
    ReadsOnly (.schRddesc 2) ∧ (∃ t, exec (.schRddesc 2) running = .next t ∧ Answers running t true 0x00020009#32) ∧
    ReadsOnly .ctlRdstatus :=
  ⟨.inr ⟨2, .inl rfl⟩, ⟨_, rfl, rfl⟩, .inl (by decide)⟩

theorem witness_RepeatingAnIdempotentCommandChangesNothing :
    (∃ idx period, Instr.schSetper 2 7 = .schSetper idx period) ∧
    (∃ t, exec (.schSetper 2 7) running = .next t ∧ Answers running t true 0#32) ∧
    (∃ t, exec .fmtAvg fullRing = .next t ∧ Answers fullRing t true 0x302E3035#32) :=
  ⟨⟨2, 7, rfl⟩, ⟨_, rfl, rfl⟩, _, rfl, rfl⟩

/-- A push meets every premise but SLOT's; a tick meets every premise but ST's and EL's; a SCH_SETPER is the one that
writes PER. -/
theorem witness_EachElementHasItsWriters :
    ((Op.command 0x31000001#32).isTick = false ∧ (Op.command 0x31000001#32).instr = some (.rbPush 1)) ∧
    (Op.tickIn.isTick = true ∧ Op.tickIn.instr = none) ∧
    ∃ t, serve (.command 0x31000001#32) running = .next t ∧ ∀ v, ¬ Answers running t false v :=
  ⟨by decide, by decide, _, rfl, fun v h => by simp [Answers, State.respond, State.push] at h⟩

theorem witness_PseudoCommandsDoWhatTheyStandFor :
    running.Inv ∧ [1, 65535, 10].length = running.nTask ∧ ∀ p ∈ [1, 65535, 10], 1 ≤ p ∧ p ≤ 65535 :=
  ⟨inv_running, by decide, by decide⟩

end Sys2Proof.Tests
end

section
/-! PROOFS. The scope family (00_scope.md): steps and the operations to come (R14, R17, R54), the responses (R18, R69,
R150), and the invariant at reset (R7, R40, R151). -/

namespace Sys2Proof.Machine

variable {s t : State}

/-! ### A step takes the next operation -/

/-- A step applies the next operation to the state without it (R14). -/
theorem step_of_inputs_cons {op : Op} {rest : List Op} (h : s.inputs = op :: rest) :
    step s = serve op { s with inputs := rest } := by
  simp only [step, takeOp_cons h]

/-- Settles O6: the step takes the command word, and serving a word that decodes is executing its command. -/
theorem stepRunsTheDecodedCommand : Obligations.StepRunsTheDecodedCommand := by
  intro s w rest i hs hw
  calc step s = serveCommand w { s with inputs := rest } := step_of_inputs_cons hs
    _ = exec i { s with inputs := rest } := serveCommand_of_decode hw _

/-! ### What an operation answers -/

/-- Every effect of a command answers exactly once and keeps the operations to come: it is a `respond` on a state that
keeps both lists (R69). -/
theorem Effect.answers {i : Instr} (h : Effect s i t) : (∃ ok v, Answers s t ok v) ∧ SameInputs s t := by
  cases h <;> exact ⟨⟨_, _, rfl⟩, rfl⟩

/-- Every command word, legal or not, answers exactly once and keeps the operations to come (R69, R150). -/
theorem serve_command_answers {w : Word} (h : serve (.command w) s = .next t) :
    (∃ ok v, Answers s t ok v) ∧ SameInputs s t := by
  rcases serve_effect h with ⟨hop, -⟩ | ⟨-, -, rfl⟩ | ⟨i, -, -, heff⟩
  · cases hop
  · exact ⟨⟨_, _, rfl⟩, rfl⟩
  · exact heff.answers

/-- No operation touches the operations still to come. -/
theorem serve_sameInputs {op : Op} (h : serve op s = .next t) : SameInputs s t := by
  cases op with
  | tickIn => cases h; rfl
  | command w => exact (serve_command_answers h).2

/-- Settles O11: a pulse writes the table only, and a command word has one of the effects of `serve_effect`. -/
theorem oneResponsePerCommandNoneForAPulse : Obligations.OneResponsePerCommandNoneForAPulse := by
  intro s
  refine ⟨⟨s.tickAll, serve_tickIn s, rfl, rfl⟩, fun w => ?_⟩
  obtain ⟨t, ht⟩ := serve_next (.command w) s
  obtain ⟨⟨ok, v, hans⟩, hin⟩ := serve_command_answers ht
  exact ⟨t, ok, v, ht, hans, hin⟩

/-! ### No operation reads the operations to come -/

/-- The same state with other operations to come. -/
def State.withInputs (ops : List Op) (s : State) : State := { s with inputs := ops }

/-- Putting back a state's own operations to come changes nothing. -/
theorem withInputs_self {ops : List Op} (h : s.inputs = ops) : s.withInputs ops = s := by
  subst h
  rfl

/-- The index check reads the table only. -/
theorem withDescr_withInputs (ops : List Op) (s : State) (idx : Octet) (go : Descr → State) :
    (s.withInputs ops).withDescr idx (fun d => (go d).withInputs ops) = (s.withDescr idx go).withInputs ops := by
  rcases withDescr_cases s idx go with ⟨hge, h⟩ | ⟨d, -, hd, h⟩
  · rw [h]
    exact withDescr_of_ge (s := s.withInputs ops) hge _
  · rw [h]
    exact withDescr_of_lt (s := s.withInputs ops) hd _

/-- Formatting does not read the operations to come. -/
theorem format_withInputs (ops : List Op) (s : State) (v : Nat) :
    (s.withInputs ops).format v = (s.format v).withInputs ops := by
  simp only [State.format, apply_ite (State.withInputs ops)]
  rfl

/-- A command does on the state with other operations to come what it does without them. -/
theorem exec_withInputs (ops : List Op) {i : Instr} (h : exec i s = .next t) :
    exec i (s.withInputs ops) = .next (t.withInputs ops) := by
  cases i with
  | schSetper idx period =>
    cases h
    rw [← withDescr_withInputs]
    simp only [apply_ite (State.withInputs ops)]
    rfl
  | schRddesc idx =>
    cases h
    rw [← withDescr_withInputs]
    rfl
  | schRdper idx =>
    cases h
    rw [← withDescr_withInputs]
    rfl
  | dspStep =>
    cases h
    simp only [apply_ite (State.withInputs ops)]
    rfl
  | dspDone =>
    cases h
    simp only [apply_ite (State.withInputs ops)]
    rfl
  | fmtVal v =>
    cases h
    rw [← format_withInputs]
    rfl
  | fmtAvg =>
    cases h
    rw [← format_withInputs]
    rfl
  | _ => cases h; rfl

/-- An operation does on the state with other operations to come what it does without them. -/
theorem serve_withInputs (ops : List Op) {op : Op} (h : serve op s = .next t) :
    serve op (s.withInputs ops) = .next (t.withInputs ops) := by
  rcases serve_cases op s with ⟨rfl, hs⟩ | ⟨w, r, rfl, hd, hs⟩ | ⟨w, i, rfl, hd, hs⟩ <;> rw [hs] at h
  · cases h; rfl
  · cases h
    exact serveCommand_of_illegal hd _
  · exact (serveCommand_of_decode hd _).trans (exec_withInputs ops h)

/-! ### The machine's run -/

/-- One step of the machine's run. -/
theorem core_run_succ (h : step s = .next t) (k : Nat) :
    (Host.Core.run Sys2Proof.core (k + 1) s : Host.Outcome State Fault Refusal) = Host.Core.run Sys2Proof.core k t := by
  have hcore : Sys2Proof.core.step s = .next t := h
  simp only [Host.Core.run, hcore]

/-- The machine's steps on a state with these operations to come apply them in order, each once. -/
theorem core_run_eq_runOps {ops : List Op} (h : s.inputs = ops) :
    (Host.Core.run Sys2Proof.core ops.length s : Host.Outcome State Fault Refusal) = runOps ops (s.withInputs []) := by
  induction ops generalizing s with
  | nil =>
    rw [withInputs_self h]
    rfl
  | cons op ops ih =>
    obtain ⟨t, ht⟩ := serve_next op (s.withInputs ops)
    have hstep : step s = .next t := (step_of_inputs_cons h).trans ht
    have hemptied : serve op (s.withInputs []) = .next (t.withInputs []) :=
      serve_withInputs (s := s.withInputs ops) [] ht
    rw [List.length_cons, core_run_succ hstep, runOps_cons hemptied]
    exact ih (serve_sameInputs ht)

/-- Settles O10, by induction on the operations to come: serving one neither reads nor changes those after it. -/
theorem runServesTheInputsInOrder : Obligations.RunServesTheInputsInOrder :=
  fun _ => core_run_eq_runOps rfl

/-! ### The invariant at reset -/

/-- The ranges of R7, as facts. -/
theorem params_wf_iff (p : Params) :
    p.wf = true ↔ (1 ≤ p.nTask ∧ p.nTask ≤ 32) ∧ (1 ≤ p.cap ∧ p.cap ≤ 255) ∧ ∀ x ∈ p.periodInit, x ≠ 0#16 := by
  simp [Params.wf, Params.nTaskOk, Params.capOk, Params.periodsOk, and_assoc]

@[simp] theorem resetOf_nTask (p : Params) (fill : Nat → Half) : (State.resetOf p fill).nTask = p.nTask := by
  simp [State.nTask, State.resetOf, Params.nTask]

@[simp] theorem resetOf_cap (p : Params) (fill : Nat → Half) : (State.resetOf p fill).cap = p.cap := by
  simp [State.cap, State.resetOf]

/-- A descriptor of the reset state is STANDBY, with EL = 0 and one of the reset periods (R40). -/
theorem mem_resetOf_table {p : Params} {fill : Nat → Half} {d : Descr} :
    d ∈ (State.resetOf p fill).table ↔ ∃ period ∈ p.periodInit, { st := .standby, el := 0#16, per := period } = d :=
  List.mem_map

/-- The reset state meets the invariant for all parameters in R7's ranges and any slot contents. -/
theorem inv_resetOf {p : Params} (hp : p.wf = true) (fill : Nat → Half) : (State.resetOf p fill).Inv := by
  obtain ⟨hn, hc, hper⟩ := (params_wf_iff p).mp hp
  exact {
    nTask_range := by simpa using hn
    cap_range := by simpa using hc
    per_pos := fun d hd => by
      obtain ⟨period, hmem, rfl⟩ := mem_resetOf_table.mp hd
      exact hper period hmem
    el_le := fun d hd => by
      obtain ⟨period, -, rfl⟩ := mem_resetOf_table.mp hd
      exact Nat.zero_le _
    cur_lt := (resetOf_nTask p fill).symm ▸ hn.1
    execute_only := fun i hi => by
      obtain ⟨d, hd, hst⟩ := stAt_eq_some.mp hi
      obtain ⟨period, -, rfl⟩ := mem_resetOf_table.mp (mem_table hd)
      cases hst
    wix_lt := (resetOf_cap p fill).symm ▸ hc.1
    cnt_le := Nat.zero_le _
    partial_window := fun _ => rfl
    status_legal := ⟨BitVec.zero_and, .inl rfl⟩
    fbuf_legal := .inl rfl }

/-- Settles O18: `State.reset` is the reset state of the reference parameters, which lie in R7's ranges. -/
theorem resetMeetsTheInvariant : Obligations.ResetMeetsTheInvariant :=
  ⟨fun _ fill hp => inv_resetOf hp fill, inv_resetOf (by decide) _⟩

end Sys2Proof.Machine
end


section
/-! PROOFS. The state family (10_state.md): the element values after reset (R40), the writers of each element (R35) and the
lifecycle of ST (R36). -/

namespace Sys2Proof.Machine

variable {s t : State}

/-! ### The columns of the table after each write of it -/

@[simp] theorem setSt_elAt (s : State) (i j : Nat) (st : TaskState) : (s.setSt i st).elAt j = s.elAt j := by
  simp only [State.elAt, setSt_getElem?, Option.map_map, Function.comp_def, apply_ite Descr.el, ite_self]

@[simp] theorem setSt_perAt (s : State) (i j : Nat) (st : TaskState) : (s.setSt i st).perAt j = s.perAt j := by
  simp only [State.perAt, setSt_getElem?, Option.map_map, Function.comp_def, apply_ite Descr.per, ite_self]

theorem setSt_stAt (s : State) (i j : Nat) (st : TaskState) :
    (s.setSt i st).stAt j = (s.stAt j).map (fun a => if i = j then st else a) := by
  simp only [State.stAt, setSt_getElem?, Option.map_map, Function.comp_def, apply_ite Descr.st]

/-- Only ST[i] is written. -/
theorem setSt_stAt_of_ne (s : State) {i j : Nat} (h : i ≠ j) (st : TaskState) : (s.setSt i st).stAt j = s.stAt j := by
  simp [setSt_stAt, h]

/-- What is read at the index written is what was written. -/
theorem eq_of_setSt_stAt {i : Nat} {st a : TaskState} (h : (s.setSt i st).stAt i = some a) : a = st := by
  simp only [setSt_stAt, ite_true, Option.map_eq_some_iff] at h
  obtain ⟨-, -, rfl⟩ := h
  rfl

@[simp] theorem setPer_stAt (s : State) (i j : Nat) (period : Half) : (s.setPer i period).stAt j = s.stAt j := by
  simp only [State.stAt, setPer_getElem?, Option.map_map, Function.comp_def, apply_ite Descr.st, ite_self]

@[simp] theorem setPer_elAt (s : State) (i j : Nat) (period : Half) : (s.setPer i period).elAt j = s.elAt j := by
  simp only [State.elAt, setPer_getElem?, Option.map_map, Function.comp_def, apply_ite Descr.el, ite_self]

@[simp] theorem tickAll_perAt (s : State) (j : Nat) : s.tickAll.perAt j = s.perAt j := by
  simp only [State.perAt, tickAll_getElem?, Option.map_map, Function.comp_def, tick_per]

/-! ### Which command writes which element (R35) -/

/-- No command changes NTASK or CAP (R21, R28). -/
theorem Effect.sizes {i : Instr} (h : Effect s i t) : t.nTask = s.nTask ∧ t.cap = s.cap := by
  cases h with
  | push v => exact ⟨rfl, push_cap s v⟩
  | init | setper | tick | run | done => exact ⟨by simp [State.nTask], rfl⟩
  | _ => exact ⟨rfl, rfl⟩

theorem Effect.stAt {i : Instr} (h : Effect s i t) (htick : i ≠ .schTick)
    (hi : i ∉ ([.schInit, .dspStep, .dspDone] : List Instr)) (j : Nat) : t.stAt j = s.stAt j := by
  cases h with
  | tick => exact absurd rfl htick
  | init | run | done => exact absurd (by simp) hi
  | setper idx period => exact setPer_stAt s idx.toNat j period
  | _ => rfl

theorem Effect.elAt {i : Instr} (h : Effect s i t) (htick : i ≠ .schTick) (hinit : i ≠ .schInit) (j : Nat) :
    t.elAt j = s.elAt j := by
  cases h with
  | tick => exact absurd rfl htick
  | init => exact absurd rfl hinit
  | setper idx period => exact setPer_elAt s idx.toNat j period
  | run => exact setSt_elAt s s.cur.toNat j .execute
  | done => exact setSt_elAt s s.cur.toNat j .standby
  | _ => rfl

theorem Effect.perAt {i : Instr} (h : Effect s i t) (hi : ∀ idx period, i ≠ .schSetper idx period) (j : Nat) :
    t.perAt j = s.perAt j := by
  cases h with
  | setper idx period => exact absurd rfl (hi idx period)
  | tick => exact tickAll_perAt s j
  | init => simp [State.perAt, Descr.init, Function.comp_def]
  | run => exact setSt_perAt s s.cur.toNat j .execute
  | done => exact setSt_perAt s s.cur.toNat j .standby
  | _ => rfl

theorem Effect.sameDispatcher {i : Instr} (h : Effect s i t) (hi : i ∉ ([.dspStep, .dspDone] : List Instr)) :
    SameDispatcher s t := by
  cases h with
  | run | idle | done => exact absurd (by simp) hi
  | _ => exact ⟨rfl, rfl⟩

theorem Effect.slot {i : Instr} (h : Effect s i t) (hi : ∀ v, i ≠ .rbPush v) : t.slot = s.slot := by
  cases h with
  | push v => exact absurd rfl (hi v)
  | _ => rfl

theorem Effect.sameRing {i : Instr} (h : Effect s i t) (hi : ∀ v, i ≠ .rbPush v) (hclear : i ≠ .rbClear) :
    SameRing s t := by
  cases h with
  | push v => exact absurd rfl (hi v)
  | clear => exact absurd rfl hclear
  | _ => exact ⟨rfl, rfl, rfl⟩

theorem Effect.sameFbuf {i : Instr} (h : Effect s i t) (hval : ∀ v, i ≠ .fmtVal v) (havg : i ≠ .fmtAvg) :
    SameFbuf s t := by
  cases h with
  | format v hv hi =>
    obtain ⟨x, rfl⟩ | rfl := hi
    · exact absurd rfl (hval x)
    · exact absurd rfl havg
  | _ => rfl

/-- What a command other than CTL_CLRERR does to STATUS shows in its answer: a refusal records its code in both, a success
keeps STATUS (R131). -/
theorem Effect.status {i : Instr} (h : Effect s i t) (hi : i ≠ .ctlClrerr) :
    (∃ e, t.status = statusAfter e s.status ∧ Answers s t false e.codeWord) ∨
      (SameStatus s t ∧ ∃ w, Answers s t true w) := by
  cases h with
  | refused _ e => exact .inl ⟨e, rfl, rfl⟩
  | clrerr => exact absurd rfl hi
  | _ => exact .inr ⟨rfl, _, rfl⟩

/-! ### The same for an operation of either agent -/

/-- An operation that is no tick is no SCH_TICK command. -/
theorem instr_ne_schTick {op : Op} {i : Instr} (h : op.isTick = false) (hi : op.instr = some i) : i ≠ .schTick := by
  rintro rfl
  simp [Op.isTick, hi] at h

theorem serve_sizes {op : Op} (h : serve op s = .next t) : t.nTask = s.nTask ∧ t.cap = s.cap := by
  rcases serve_effect h with ⟨-, rfl⟩ | ⟨-, -, rfl⟩ | ⟨i, -, -, heff⟩
  · exact ⟨tickAll_nTask s, rfl⟩
  · exact ⟨rfl, rfl⟩
  · exact heff.sizes

/-- What an operation other than CTL_CLRERR does to STATUS and to the responses: a refusal records its code in both, else
STATUS is kept and at most a success is answered (R131). -/
theorem serve_status {op : Op} (h : serve op s = .next t) (hop : op.instr ≠ some .ctlClrerr) :
    (∃ e, t.status = statusAfter e s.status ∧ Answers s t false e.codeWord) ∨
      (SameStatus s t ∧ (t.responses = s.responses ∨ ∃ w, Answers s t true w)) := by
  rcases serve_effect h with ⟨-, rfl⟩ | ⟨-, -, rfl⟩ | ⟨i, hi, -, heff⟩
  · exact .inr ⟨rfl, .inl rfl⟩
  · exact .inl ⟨.ill, rfl, rfl⟩
  · exact (heff.status fun hc => hop (hc ▸ hi)).imp_right fun ⟨hst, hans⟩ => ⟨hst, .inr hans⟩

/-- Settles O59: a pulse and an ILL refusal have their frames by definition, and each command has them column by column. -/
theorem eachElementHasItsWriters : Obligations.EachElementHasItsWriters := by
  intro op s
  obtain ⟨t, ht⟩ := serve_next op s
  have hstatus : op.instr ≠ some .ctlClrerr → (∀ v, ¬ Answers s t false v) → SameStatus s t := fun hop hno =>
    (serve_status ht hop).elim (fun ⟨_, _, hans⟩ => absurd hans (hno _)) And.left
  refine ⟨t, ht, (serve_sizes ht).1, (serve_sizes ht).2, ?_⟩
  rcases serve_effect ht with ⟨rfl, rfl⟩ | ⟨-, -, rfl⟩ | ⟨i, hi, -, heff⟩
  · exact ⟨fun h => by simp [Op.isTick] at h, fun h => by simp [Op.isTick] at h, fun _ => tickAll_perAt s,
      fun _ => ⟨rfl, rfl⟩, fun _ => ⟨rfl, fun _ => ⟨rfl, rfl, rfl⟩⟩, fun _ _ => rfl, hstatus⟩
  · exact ⟨fun _ _ _ => rfl, fun _ _ _ => rfl, fun _ _ => rfl,
      fun _ => ⟨rfl, rfl⟩, fun _ => ⟨rfl, fun _ => ⟨rfl, rfl, rfl⟩⟩, fun _ _ => rfl, hstatus⟩
  · rw [hi] at hstatus ⊢
    exact ⟨fun h hno => heff.stAt (instr_ne_schTick h hi) (by simpa using hno),
      fun h hno => heff.elAt (instr_ne_schTick h hi) (by simpa using hno),
      fun hno => heff.perAt (by simpa using hno),
      fun hno => heff.sameDispatcher (by simpa using hno),
      fun hno => ⟨heff.slot (by simpa using hno), fun hc => heff.sameRing (by simpa using hno) (by simpa using hc)⟩,
      fun hval havg => heff.sameFbuf (by simpa using hval) (by simpa using havg), hstatus⟩

/-! ### The lifecycle of ST (R36) -/

/-- A tick changes the ST of the descriptors that cross, to READY (40_scheduler.md R77, R78). -/
theorem tickAll_st_change {j : Nat} {a b : TaskState} (ha : s.stAt j = some a) (hb : s.tickAll.stAt j = some b)
    (hne : a ≠ b) :
    b = .ready ∧ ∃ el per, s.elAt j = some el ∧ s.perAt j = some per ∧ per.toNat ≤ el.toNat + 1 := by
  obtain ⟨d, hd, rfl⟩ := stAt_eq_some.mp ha
  have hb : d.tick.st = b := by simpa [State.stAt, hd] using hb
  by_cases hc : d.per.toNat ≤ d.el.toNat + 1
  · refine ⟨?_, d.el, d.per, by simp [State.elAt, hd], by simp [State.perAt, hd], hc⟩
    simpa [tick_of_crosses hc] using hb.symm
  · rw [tick_of_not_crosses (Nat.lt_of_not_le hc)] at hb
    exact absurd hb hne

/-- A write of ST[i] changes no other ST, and ST[i] to the value written. -/
theorem setSt_st_change {i j : Nat} {st a b : TaskState} (ha : s.stAt j = some a) (hb : (s.setSt i st).stAt j = some b)
    (hne : a ≠ b) : j = i ∧ b = st := by
  by_cases hij : i = j
  · subst hij
    exact ⟨rfl, eq_of_setSt_stAt hb⟩
  · rw [setSt_stAt_of_ne s hij, ha] at hb
    exact absurd (Option.some.inj hb) hne

/-- The commands that change an ST, each with the edge it takes. -/
theorem Effect.st_change {i : Instr} (h : Effect s i t) {j : Nat} {a b : TaskState} (ha : s.stAt j = some a)
    (hb : t.stAt j = some b) (hne : a ≠ b) :
    (i = .schTick ∧ s.tickAll.stAt j = some b) ∨
      (i = .dspStep ∧ a = .ready ∧ b = .execute ∧ j = s.cur.toNat ∧ s.busy = false) ∨
      (i = .dspDone ∧ b = .standby ∧ j = s.cur.toNat ∧ s.busy = true) ∨
      (i = .schInit ∧ b = .standby) := by
  have same : t.stAt j ≠ s.stAt j := fun heq => hne (Option.some.inj (by rw [← ha, ← hb, heq]))
  cases h with
  | tick => exact .inl ⟨rfl, hb⟩
  | run hbusy hready =>
    obtain ⟨rfl, rfl⟩ := setSt_st_change ha hb hne
    exact .inr (.inl ⟨rfl, Option.some.inj (ha.symm.trans hready), rfl, rfl, hbusy⟩)
  | done hbusy =>
    obtain ⟨rfl, rfl⟩ := setSt_st_change ha hb hne
    exact .inr (.inr (.inl ⟨rfl, rfl, rfl, hbusy⟩))
  | init =>
    obtain ⟨d, hd, -⟩ := stAt_eq_some.mp ha
    exact .inr (.inr (.inr ⟨rfl, by simpa [State.stAt, hd, Descr.init] using hb.symm⟩))
  | setper idx period => exact absurd (setPer_stAt s idx.toNat j period) same
  | _ => exact absurd rfl same

/-- Settles O32: a pulse is a tick, an ILL refusal writes no ST, and the commands that do are those of
`Effect.st_change`. -/
theorem descriptorsMoveOnlyAlongTheLifecycle : Obligations.DescriptorsMoveOnlyAlongTheLifecycle := by
  intro op s
  obtain ⟨t, ht⟩ := serve_next op s
  refine ⟨t, ht, fun j a b ha hb hne => ?_⟩
  rcases serve_effect ht with ⟨rfl, rfl⟩ | ⟨-, -, rfl⟩ | ⟨i, hi, -, heff⟩
  · exact .inl ⟨rfl, tickAll_st_change ha hb hne⟩
  · exact absurd (Option.some.inj (ha.symm.trans hb)) hne
  · rcases heff.st_change ha hb hne with ⟨rfl, htick⟩ | ⟨rfl, h⟩ | ⟨rfl, h⟩ | ⟨rfl, h⟩
    · exact .inl ⟨by simp [Op.isTick, hi], tickAll_st_change ha htick hne⟩
    · exact .inr (.inl ⟨hi, h⟩)
    · exact .inr (.inr (.inl ⟨hi, h⟩))
    · exact .inr (.inr (.inr ⟨hi, h⟩))

/-! ### EL and PER around a tick (R39) -/

/-- Settles O24: the bound is the invariant's; a tick leaves EL below PER, and EL ≥ PER is a crossing. -/
theorem tickLeavesElapsedBelowPeriod : Obligations.TickLeavesElapsedBelowPeriod := by
  intro s hs
  refine ⟨fun i el hel => ?_, s.tickAll, rfl, fun i el per hel hper => ?_, fun i el per hel hper hle => ?_⟩
  · obtain ⟨d, hd, rfl⟩ := elAt_eq_some.mp hel
    exact hs.el_le d (mem_table hd)
  · rw [tickAll_perAt] at hper
    obtain ⟨d, hd, rfl⟩ := perAt_eq_some.mp hper
    have hel : d.tick.el = el := by simpa [State.elAt, hd] using hel
    rw [← hel]
    exact tick_el_lt (hs.per_pos d (mem_table hd))
  · obtain ⟨d, hd, rfl⟩ := elAt_eq_some.mp hel
    obtain rfl : d.per = per := by simpa [State.perAt, hd] using hper
    have hcross : d.per.toNat ≤ d.el.toNat + 1 := by omega
    simp [State.stAt, State.elAt, hd, tick_of_crosses hcross]

/-! ### The values after reset (R40, R151) -/

/-- Descriptor i after reset (R40). -/
theorem resetOf_getElem? (p : Params) (fill : Nat → Half) (i : Nat) :
    (State.resetOf p fill).table[i]? =
      (p.periodInit[i]?).map (fun period => { st := .standby, el := 0#16, per := period }) := List.getElem?_map

/-- Settles O17: the table and the slots are read index by index, every other element by definition. -/
theorem resetGivesEveryElementItsValue : Obligations.ResetGivesEveryElementItsValue := by
  intro p fill
  refine ⟨resetOf_nTask p fill, resetOf_cap p fill, fun i hi => ?_, rfl, rfl, rfl, rfl, rfl, rfl, fun j hj => ?_, rfl⟩
  · have hget : p.periodInit[i]? = some p.periodInit[i] := List.getElem?_eq_getElem hi
    simp [State.stAt, State.elAt, State.perAt, resetOf_getElem?, hget]
  · simp [State.slotAt, State.resetOf, hj]

end Sys2Proof.Machine
end

section
/-! PROOFS. The state family, STATUS: what a refusal leaves in it (10_state.md R33, 60_exceptions.md R131), and what it
says of a run (44_control.md R124). -/

namespace Sys2Proof.Machine

variable {s t : State}

/-! ### STATUS after one refusal -/

/-- A refusal sets its own sticky bit and keeps the others (R131). -/
theorem statusAfter_stickyBit (e e' : CmdError) (status : Word) :
    (statusAfter e status).getLsbD e'.stickyBit = (status.getLsbD e'.stickyBit || decide (e' = e)) := by
  have hkept : (0xFFFFF8FF#32).getLsbD e'.stickyBit = true := by cases e' <;> rfl
  have hcode : (e.codeWord <<< 8).getLsbD e'.stickyBit = false := by cases e <;> cases e' <;> rfl
  have hsticky : (1#32 <<< e.stickyBit).getLsbD e'.stickyBit = decide (e' = e) := by cases e <;> cases e' <;> rfl
  rw [getLsbD_statusAfter, BitVec.getLsbD_and, hkept, hcode, hsticky, Bool.and_true, Bool.or_false]

/-- LASTERR is the code of the refusal (R131). -/
theorem lastErr_statusAfter (e : CmdError) (status : Word) : lastErr (statusAfter e status) = BitVec.ofNat 3 e.code := by
  have hmask : (0xFFFFF8FF#32).extractLsb' 8 3 = 0#3 := by rfl
  have hcode : (e.codeWord <<< 8).extractLsb' 8 3 = BitVec.ofNat 3 e.code := by cases e <;> rfl
  have hsticky : (1#32 <<< e.stickyBit).extractLsb' 8 3 = 0#3 := by cases e <;> rfl
  simp only [lastErr, statusAfter, BitVec.extractLsb'_or, BitVec.extractLsb'_and, hmask, hcode, hsticky,
    BitVec.and_zero, BitVec.zero_or, BitVec.or_zero]

/-- A refusal writes no reserved bit (R33). -/
theorem statusAfter_reserved {status : Word} (e : CmdError) (h : status &&& 0xFFFFF8E0#32 = 0#32) :
    statusAfter e status &&& 0xFFFFF8E0#32 = 0#32 := by
  have hcode : (e.codeWord <<< 8) &&& 0xFFFFF8E0#32 = 0#32 := by cases e <;> rfl
  have hsticky : (1#32 <<< e.stickyBit) &&& 0xFFFFF8E0#32 = 0#32 := by cases e <;> rfl
  have hkept : (status &&& 0xFFFFF8FF#32) &&& 0xFFFFF8E0#32 = 0#32 := by
    rw [BitVec.and_assoc, BitVec.and_comm 0xFFFFF8FF#32, ← BitVec.and_assoc, h, BitVec.zero_and]
  simp only [statusAfter, BitVec.and_or_distrib_right, hkept, hcode, hsticky, BitVec.or_zero]

/-- A refusal keeps STATUS legal: LASTERR is its code, and its sticky bit is set. -/
theorem statusLegal_statusAfter {status : Word} (e : CmdError) (h : StatusLegal status) :
    StatusLegal (statusAfter e status) :=
  ⟨statusAfter_reserved e h.1, .inr ⟨e, lastErr_statusAfter e status, by simp [statusAfter_stickyBit]⟩⟩

/-! ### STATUS against the answers of a run -/

/-- STATUS says of `answers`, newest first: a sticky bit is set exactly when its refusal is among them, and LASTERR is the
code of the latest refusal, 0 for none (R33, R137). -/
def StatusRecords (status : Word) (answers : List Response) : Prop :=
  (∀ e : CmdError, status.getLsbD e.stickyBit = true ↔ ({ ok := false, word := e.codeWord } : Response) ∈ answers) ∧
    lastErr status = ((answers.find? (fun r => !r.ok)).map (fun r => r.word.extractLsb' 0 3)).getD 0#3

theorem statusRecords_nil : StatusRecords 0#32 [] :=
  ⟨fun e => by simp, rfl⟩

theorem StatusRecords.refusal {status : Word} {answers : List Response} (h : StatusRecords status answers)
    (e : CmdError) : StatusRecords (statusAfter e status) ({ ok := false, word := e.codeWord } :: answers) := by
  obtain ⟨hbits, -⟩ := h
  refine ⟨fun e' => ?_, ?_⟩
  · have hword : e'.codeWord = e.codeWord ↔ e' = e := ⟨codeWord_injective, congrArg _⟩
    simp [statusAfter_stickyBit, hbits, hword, or_comm]
  · rw [lastErr_statusAfter, List.find?_cons_of_pos rfl]
    cases e <;> rfl

theorem StatusRecords.success {status : Word} {answers : List Response} (h : StatusRecords status answers) (w : Word) :
    StatusRecords status ({ ok := true, word := w } :: answers) := by
  obtain ⟨hbits, hlast⟩ := h
  exact ⟨fun e => by simp [hbits], by simpa using hlast⟩

/-- An operation other than CTL_CLRERR adds to the answers what STATUS takes. -/
theorem serve_statusRecords {op : Op} (h : serve op s = .next t) (hop : op.instr ≠ some .ctlClrerr)
    {answers : List Response} (hs : StatusRecords s.status answers) :
    ∃ new, t.responses = new ++ s.responses ∧ StatusRecords t.status (new ++ answers) := by
  rcases serve_status h hop with ⟨e, hst, hans⟩ | ⟨hst, hresp | ⟨w, hans⟩⟩ <;> rw [hst]
  · exact ⟨[_], hans, hs.refusal e⟩
  · exact ⟨[], hresp, hs⟩
  · exact ⟨[_], hans, hs.success w⟩

/-- A run without CTL_CLRERR keeps STATUS in step with the answers. -/
theorem runOps_statusRecords {ops : List Op} (hops : ∀ op ∈ ops, op.instr ≠ some .ctlClrerr)
    (h : runOps ops s = .next t) {answers : List Response} (hs : StatusRecords s.status answers) :
    ∃ new, t.responses = new ++ s.responses ∧ StatusRecords t.status (new ++ answers) := by
  induction ops generalizing s answers with
  | nil => cases h; exact ⟨[], rfl, hs⟩
  | cons op ops ih =>
    obtain ⟨hop, hops⟩ := List.forall_mem_cons.mp hops
    obtain ⟨u, hu⟩ := serve_next op s
    rw [runOps_cons hu] at h
    obtain ⟨now, hnow, hrec⟩ := serve_statusRecords hu hop hs
    obtain ⟨later, hlater, hrec⟩ := ih hops h hrec
    exact ⟨later ++ now, by rw [hlater, hnow, List.append_assoc], by rwa [List.append_assoc]⟩

/-- Settles O55, by induction on the operations: each keeps STATUS in step with the answers. -/
theorem statusShowsTheRefusalsSinceTheLastClear : Obligations.StatusShowsTheRefusalsSinceTheLastClear := by
  intro ops s hs hops
  obtain ⟨t, ht⟩ := runOps_next ops s
  obtain ⟨answers, hresp, hrec⟩ := runOps_statusRecords hops ht (hs ▸ statusRecords_nil)
  rw [List.append_nil] at hrec
  exact ⟨t, answers, ht, hresp, hrec⟩

end Sys2Proof.Machine
end

section
/-! PROOFS. The state family: every operation keeps the invariant (10_state.md section 10). -/

namespace Sys2Proof.Machine

variable {s t : State}

/-! ### One lemma per update of the state -/

theorem inv_withInputs (hs : s.Inv) (ops : List Op) : (s.withInputs ops).Inv := { hs with }

theorem inv_respond (hs : s.Inv) (ok : Bool) (w : Word) : (s.respond ok w).Inv := { hs with }

theorem inv_raiseCmdError (hs : s.Inv) (e : CmdError) : (s.raiseCmdError e).Inv :=
  { hs with status_legal := statusLegal_statusAfter e hs.status_legal }

theorem inv_clearStatus (hs : s.Inv) : ({ s with status := 0#32 } : State).Inv :=
  { hs with status_legal := ⟨BitVec.zero_and, .inl rfl⟩ }

theorem inv_setFbuf (hs : s.Inv) {v : Nat} (hv : v ≤ 99) : ({ s with fbuf := fmtText v } : State).Inv :=
  { hs with fbuf_legal := .inr ⟨v, hv, rfl⟩ }

/-! The table and the dispatcher. -/

/-- A write of the table descriptor by descriptor, and of BUSY, that keeps PER and EL in range and leaves EXECUTE only
while BUSY and only at CUR. -/
theorem inv_writeTable (hs : s.Inv) {table : List Descr} (b : Bool) {f : Nat → Descr → Descr}
    (hlen : table.length = s.table.length) (hget : ∀ i, table[i]? = (s.table[i]?).map (f i))
    (hper : ∀ i, ∀ d ∈ s.table, (f i d).per ≠ 0#16) (hel : ∀ i, ∀ d ∈ s.table, (f i d).el.toNat ≤ 65534)
    (hexec : ∀ i d, s.table[i]? = some d → (f i d).st = .execute → b = true ∧ i = s.cur.toNat) :
    ({ s with table := table, busy := b } : State).Inv := by
  have hmem : ∀ d' ∈ table, ∃ i, ∃ d ∈ s.table, f i d = d' := fun d' hd' => by
    obtain ⟨i, hi⟩ := List.mem_iff_getElem?.mp hd'
    obtain ⟨d, hd, hfd⟩ := Option.map_eq_some_iff.mp ((hget i).symm.trans hi)
    exact ⟨i, d, mem_table hd, hfd⟩
  have hn : ({ s with table := table, busy := b } : State).nTask = s.nTask := hlen
  exact { hs with
    nTask_range := hn ▸ hs.nTask_range
    per_pos := fun d' hd' => by
      obtain ⟨i, d, hd, rfl⟩ := hmem d' hd'
      exact hper i d hd
    el_le := fun d' hd' => by
      obtain ⟨i, d, hd, rfl⟩ := hmem d' hd'
      exact hel i d hd
    cur_lt := hn ▸ hs.cur_lt
    execute_only := fun i hi => by
      obtain ⟨d', hd', hst⟩ := stAt_eq_some.mp hi
      obtain ⟨d, hd, rfl⟩ := Option.map_eq_some_iff.mp ((hget i).symm.trans hd')
      exact hexec i d hd hst }

/-- The invariant's clause on EXECUTE, of a descriptor. -/
theorem execute_at_cur (hs : s.Inv) {i : Nat} {d : Descr} (hd : s.table[i]? = some d) (hst : d.st = .execute) :
    s.busy = true ∧ i = s.cur.toNat := hs.execute_only i (stAt_eq_some.mpr ⟨d, hd, hst⟩)

/-- A tick makes no descriptor EXECUTE (R36). -/
theorem execute_of_tick_execute {d : Descr} (h : d.tick.st = .execute) : d.st = .execute := by
  by_cases hc : d.per.toNat ≤ d.el.toNat + 1
  · rw [tick_of_crosses hc] at h
    cases h
  · rwa [tick_of_not_crosses (Nat.lt_of_not_le hc)] at h

theorem inv_tickAll (hs : s.Inv) : s.tickAll.Inv :=
  inv_writeTable hs s.busy (f := fun _ => Descr.tick) (tickAll_nTask s) (tickAll_getElem? s)
    (fun _ d hd => (tick_per d).symm ▸ hs.per_pos d hd)
    (fun _ d hd => by
      have hlt := tick_el_lt (hs.per_pos d hd)
      have hper := d.per.isLt
      omega)
    fun _ _ hd hst => execute_at_cur hs hd (execute_of_tick_execute hst)

theorem inv_initTable (hs : s.Inv) : ({ s with table := s.table.map Descr.init } : State).Inv :=
  inv_writeTable hs s.busy (f := fun _ => Descr.init) (List.length_map _) (fun _ => List.getElem?_map)
    (fun _ => hs.per_pos) (fun _ _ _ => Nat.zero_le _) nofun

theorem inv_setPer (hs : s.Inv) (i : Nat) {period : Half} (hp : period ≠ 0#16) : (s.setPer i period).Inv :=
  inv_writeTable hs s.busy (setPer_nTask s i period) (setPer_getElem? s i · period)
    (fun j d hd => by
      split
      · exact hp
      · exact hs.per_pos d hd)
    (fun j d hd => by
      rw [apply_ite Descr.el, ite_self]
      exact hs.el_le d hd)
    fun j d hd hst => by
      rw [apply_ite Descr.st, ite_self] at hst
      exact execute_at_cur hs hd hst

/-- ST[CUR] may be written, as EXECUTE only together with BUSY: no other descriptor is EXECUTE (R37). -/
theorem inv_setSt_cur (hs : s.Inv) {st : TaskState} {b : Bool} (hb : st = .execute → b = true) :
    ({ s.setSt s.cur.toNat st with busy := b } : State).Inv :=
  inv_writeTable hs b (setSt_nTask s s.cur.toNat st) (setSt_getElem? s s.cur.toNat · st)
    (fun j d hd => by
      rw [apply_ite Descr.per, ite_self]
      exact hs.per_pos d hd)
    (fun j d hd => by
      rw [apply_ite Descr.el, ite_self]
      exact hs.el_le d hd)
    fun j d hd hst => by
      split at hst
      next hj => exact ⟨hb hst, hj.symm⟩
      next hj => exact absurd (execute_at_cur hs hd hst).2.symm hj

theorem nextCur_lt_nTask (hs : s.Inv) : s.nextCur.toNat < s.nTask := by
  obtain ⟨hpos, hle⟩ := hs.nTask_range
  rw [nextCur_toNat (hle.trans (by decide)) hpos]
  exact Nat.mod_lt _ hpos

/-- CUR moves freely while not BUSY: no descriptor is EXECUTE then (R37). -/
theorem inv_setCur (hs : s.Inv) (hb : s.busy = false) {c : Octet} (hc : c.toNat < s.nTask) :
    ({ s with cur := c } : State).Inv :=
  { hs with
    cur_lt := hc
    execute_only := fun i hi => absurd (hs.execute_only i hi).1 (by simp [hb]) }

theorem inv_runVisit (hs : s.Inv) : s.runVisit.Inv :=
  inv_respond (inv_setSt_cur hs fun _ => rfl) _ _

theorem inv_idleVisit (hs : s.Inv) (hb : s.busy = false) : s.idleVisit.Inv :=
  inv_respond (inv_setCur hs hb (nextCur_lt_nTask hs)) _ _

theorem inv_endHandler (hs : s.Inv) : s.endHandler.Inv := by
  have hended : ({ s.setSt s.cur.toNat .standby with busy := false } : State).Inv := inv_setSt_cur hs nofun
  have hlt : s.nextCur.toNat < (s.setSt s.cur.toNat .standby).nTask := by
    rw [setSt_nTask]
    exact nextCur_lt_nTask hs
  exact inv_respond (inv_setCur hended rfl hlt) _ _

/-! The ring buffer. -/

theorem inv_clearRing (hs : s.Inv) : ({ s with cnt := 0#8, wix := 0#8 } : State).Inv :=
  { hs with
    wix_lt := hs.cap_range.1
    cnt_le := Nat.zero_le _
    partial_window := fun _ => rfl }

theorem push_cnt_le_cap (hs : s.Inv) (v : Half) : (s.push v).cnt.toNat ≤ s.cap := by
  have hle := hs.cnt_le
  rw [push_cnt_toNat hs.cap_range.2]
  split <;> omega

/-- A push keeps WIX = CNT until the window is full (R38, R103). -/
theorem push_partial_window (hs : s.Inv) (v : Half) (h : (s.push v).cnt.toNat < s.cap) :
    (s.push v).wix = (s.push v).cnt := by
  obtain ⟨hpos, hle⟩ := hs.cap_range
  rw [push_cnt_toNat hle] at h
  have hpart : s.cnt.toNat < s.cap := by
    split at h <;> omega
  rw [if_pos hpart] at h
  have hwix : s.wix.toNat = s.cnt.toNat := congrArg _ (hs.partial_window hpart)
  refine BitVec.eq_of_toNat_eq ?_
  rw [push_wix_toNat hpos hle, push_cnt_toNat hle, if_pos hpart, hwix, Nat.mod_eq_of_lt h]

theorem inv_push (hs : s.Inv) (v : Half) : (s.push v).Inv := by
  obtain ⟨hpos, hle⟩ := hs.cap_range
  exact { hs with
    cap_range := (push_cap s v).symm ▸ hs.cap_range
    wix_lt := by
      rw [push_cap, push_wix_toNat hpos hle]
      exact Nat.mod_lt _ hpos
    cnt_le := (push_cap s v).symm ▸ push_cnt_le_cap hs v
    partial_window := fun h => push_partial_window hs v (push_cap s v ▸ h) }

/-! ### Commands, operations, runs and steps -/

/-- Every command keeps the invariant. -/
theorem Effect.inv {i : Instr} (h : Effect s i t) (hs : s.Inv) : t.Inv := by
  cases h with
  | refused _ e => exact inv_raiseCmdError hs e
  | read _ w _ => exact inv_respond hs true w
  | init => exact inv_respond (inv_initTable hs) _ _
  | setper idx period _ hp => exact inv_respond (inv_setPer hs idx.toNat hp) _ _
  | tick => exact inv_respond (inv_tickAll hs) _ _
  | run => exact inv_runVisit hs
  | idle hb => exact inv_idleVisit hs hb
  | done => exact inv_endHandler hs
  | clear => exact inv_respond (inv_clearRing hs) _ _
  | push v => exact inv_respond (inv_push hs v) _ _
  | format _ v _ hv => exact inv_respond (inv_setFbuf hs hv) _ _
  | clrerr => exact inv_respond (inv_clearStatus hs) _ _

/-- Every operation keeps the invariant. -/
theorem serve_inv {op : Op} (h : serve op s = .next t) (hs : s.Inv) : t.Inv := by
  rcases serve_effect h with ⟨-, rfl⟩ | ⟨-, -, rfl⟩ | ⟨i, -, -, heff⟩
  · exact inv_tickAll hs
  · exact inv_raiseCmdError hs .ill
  · exact heff.inv hs

/-- Every run of operations keeps the invariant. -/
theorem runOps_inv {ops : List Op} (h : runOps ops s = .next t) (hs : s.Inv) : t.Inv :=
  runOps_keeps (P := State.Inv) (fun _ _ _ hs h => serve_inv h hs) h hs

/-- Settles O19: a step serves the next operation, or nothing, and every operation keeps the invariant and the sizes. -/
theorem stepKeepsTheInvariant : Obligations.StepKeepsTheInvariant := by
  intro s hs
  cases hin : s.inputs with
  | nil => exact ⟨s, by simp only [step, takeOp_nil hin, serveNothing], hs, rfl, rfl⟩
  | cons op rest =>
    obtain ⟨t, ht⟩ := serve_next op (s.withInputs rest)
    obtain ⟨hn, hc⟩ := serve_sizes ht
    exact ⟨t, (step_of_inputs_cons hin).trans ht, serve_inv ht (inv_withInputs hs rest), hn, hc⟩

end Sys2Proof.Machine
end

section
/-! PROOFS. The state family: what a slot outside the read window holds never shows (10_state.md R42, 42_ringbuffer.md R101,
60_exceptions.md R155). -/

namespace Sys2Proof.Machine

variable {s t : State}

/-! ### The read window -/

/-- The window is read from the ring buffer only. -/
theorem window_congr (h : SameRing s t) : t.window = s.window := by
  obtain ⟨hslot, hwix, hcnt⟩ := h
  simp only [State.window, State.pushedAgo, State.cap, hslot, hwix, hcnt]

theorem window_of_empty (h : s.cnt = 0#8) : s.window = [] := by
  simp [State.window, h]

/-- What RB_LAST answers is the head of the window, 0 when it is empty (R108). -/
theorem last_eq_window_headD (s : State) : (if s.cnt = 0#8 then 0#16 else s.pushedAgo 1) = s.window.headD 0#16 := by
  split
  next h => rw [window_of_empty h, List.headD_nil]
  next h =>
    obtain ⟨n, hn⟩ := Nat.exists_eq_succ_of_ne_zero (mt cnt_eq_zero_iff.mpr h)
    simp [State.window, hn, List.range_succ_eq_map]

/-- The window after a push: the value, then the window before without what no longer fits (R103, R111). -/
theorem push_window (hs : s.Inv) (v : Half) : (s.push v).window = v :: s.window.take (s.cap - 1) := by
  obtain ⟨hpos, hle⟩ := hs.cap_range
  have hcnt : (s.push v).cnt.toNat = min (s.cap - 1) s.cnt.toNat + 1 := by
    have hcap := hs.cnt_le
    rw [push_cnt_toNat hle]
    split <;> omega
  simp only [State.window, hcnt, List.range_succ_eq_map, List.map_cons, List.map_map, ← List.map_take, List.take_range]
  rw [push_pushedAgo_one hpos hle hs.wix_lt]
  congr 1
  refine List.map_congr_left fun j hj => push_pushedAgo_succ hpos hle hs.wix_lt v (Nat.le_add_left 1 j) ?_
  have := List.mem_range.mp hj
  omega

/-! ### The same state with other slots -/

/-- The same state with other slot contents. -/
def State.withSlots (slots : List Half) (s : State) : State := { s with slot := slots }

/-- `SameButHiddenSlots` in terms of `withSlots`. -/
theorem sameButHiddenSlots_withSlots {slots : List Half} (hlen : slots.length = s.slot.length)
    (hwin : (s.withSlots slots).window = s.window) : SameButHiddenSlots s (s.withSlots slots) :=
  ⟨rfl, hlen, hwin⟩

/-- The index check reads the table only. -/
theorem withDescr_withSlots (slots : List Half) (s : State) (idx : Octet) (go : Descr → State) :
    (s.withSlots slots).withDescr idx (fun d => (go d).withSlots slots) = (s.withDescr idx go).withSlots slots := by
  rcases withDescr_cases s idx go with ⟨hge, h⟩ | ⟨d, -, hd, h⟩
  · rw [h]
    exact withDescr_of_ge (s := s.withSlots slots) hge _
  · rw [h]
    exact withDescr_of_lt (s := s.withSlots slots) hd _

/-- Formatting a given value does not read the slots. -/
theorem format_withSlots (slots : List Half) (s : State) (v : Nat) :
    (s.withSlots slots).format v = (s.format v).withSlots slots := by
  simp only [State.format, apply_ite (State.withSlots slots)]
  rfl

/-- The mean is that of the window (R105). -/
theorem average_withSlots {slots : List Half} (hwin : (s.withSlots slots).window = s.window) :
    (s.withSlots slots).average = s.average := by
  simp only [State.average, hwin]
  rfl

/-- A command other than RB_PUSH reads the slots only through the window, and writes none. -/
theorem exec_withSlots {slots : List Half} (hwin : (s.withSlots slots).window = s.window) {i : Instr}
    (hi : ∀ v, i ≠ .rbPush v) (h : exec i s = .next t) : exec i (s.withSlots slots) = .next (t.withSlots slots) := by
  cases i with
  | rbPush v => exact absurd rfl (hi v)
  | rbAvg =>
    cases h
    simp only [exec, execRbAvg, average_withSlots hwin]
    rfl
  | rbLast =>
    cases h
    simp only [exec, execRbLast, last_eq_window_headD, hwin]
    rfl
  | fmtAvg =>
    cases h
    rw [← format_withSlots, ← average_withSlots hwin]
    rfl
  | fmtVal v =>
    cases h
    rw [← format_withSlots]
    rfl
  | schSetper idx period =>
    cases h
    rw [← withDescr_withSlots]
    simp only [apply_ite (State.withSlots slots)]
    rfl
  | schRddesc idx | schRdper idx =>
    cases h
    rw [← withDescr_withSlots]
    rfl
  | dspStep | dspDone =>
    cases h
    simp only [apply_ite (State.withSlots slots)]
    rfl
  | _ => cases h; rfl

/-! ### The hidden slots stay hidden -/

/-- What keeps the ring buffer keeps the hidden slots hidden. -/
theorem hiddenSlots_of_sameRing {slots : List Half} (h : SameButHiddenSlots s (s.withSlots slots)) (ht : SameRing s t) :
    SameButHiddenSlots t (t.withSlots slots) := by
  obtain ⟨-, hlen, hwin⟩ := h
  obtain ⟨hslot, hwix, hcnt⟩ := ht
  have hring : SameRing (s.withSlots slots) (t.withSlots slots) := ⟨rfl, hwix, hcnt⟩
  refine sameButHiddenSlots_withSlots (hslot ▸ hlen) ?_
  rw [window_congr hring, window_congr ⟨hslot, hwix, hcnt⟩, hwin]

/-- An empty window hides every slot. -/
theorem hiddenSlots_of_empty {slots : List Half} (hlen : slots.length = t.slot.length) (ht : t.cnt = 0#8) :
    SameButHiddenSlots t (t.withSlots slots) := by
  have hcnt : (t.withSlots slots).cnt = 0#8 := ht
  exact sameButHiddenSlots_withSlots hlen (by rw [window_of_empty ht, window_of_empty hcnt])

theorem inv_withSlots (hs : s.Inv) {slots : List Half} (hlen : slots.length = s.slot.length) :
    (s.withSlots slots).Inv := by
  have hcap : (s.withSlots slots).cap = s.cap := hlen
  exact { hs with
    cap_range := hcap ▸ hs.cap_range
    wix_lt := hcap ▸ hs.wix_lt
    cnt_le := hcap ▸ hs.cnt_le
    partial_window := fun h => hs.partial_window (hcap ▸ h) }

theorem push_withSlots {slots : List Half} (hlen : slots.length = s.slot.length) (v : Half) :
    (s.withSlots slots).push v = (s.push v).withSlots (slots.set s.wix.toNat v) := by
  have hcap : (s.withSlots slots).cap = s.cap := hlen
  simp only [State.push, hcap]
  rfl

theorem exec_rbPush_withSlots {slots : List Half} (hlen : slots.length = s.slot.length) (v : Half) :
    exec (.rbPush v) (s.withSlots slots) =
      .next (((s.push v).respond true 0#32).withSlots (slots.set s.wix.toNat v)) := by
  simp only [exec, execRbPush, push_withSlots hlen]
  rfl

/-- A push brings no hidden slot into the window: it writes the one slot that joins it (R103). -/
theorem hiddenSlots_push (hs : s.Inv) {slots : List Half} (h : SameButHiddenSlots s (s.withSlots slots)) (v : Half) :
    SameButHiddenSlots (s.push v) ((s.push v).withSlots (slots.set s.wix.toNat v)) := by
  obtain ⟨-, hlen, hwin⟩ := h
  have hlen : slots.length = s.slot.length := hlen
  have hcap : (s.withSlots slots).cap = s.cap := hlen
  refine sameButHiddenSlots_withSlots (by simp [hlen]) ?_
  rw [← push_withSlots hlen, push_window (inv_withSlots hs hlen), push_window hs, hwin, hcap]

/-- A command answers alike whatever the hidden slots hold, and keeps them hidden. -/
theorem exec_hiddenSlots (hs : s.Inv) {slots : List Half} (hhid : SameButHiddenSlots s (s.withSlots slots)) {i : Instr}
    (h : exec i s = .next t) :
    ∃ t', exec i (s.withSlots slots) = .next t' ∧ SameButHiddenSlots t t' := by
  have ⟨_, hlen, hwin⟩ := hhid
  by_cases hpush : ∃ v, i = .rbPush v
  · obtain ⟨v, rfl⟩ := hpush
    cases h
    exact ⟨_, exec_rbPush_withSlots hlen v,
      hiddenSlots_of_sameRing (t := (s.push v).respond true 0#32) (hiddenSlots_push hs hhid v) ⟨rfl, rfl, rfl⟩⟩
  · have hnot : ∀ v, i ≠ .rbPush v := fun v hv => hpush ⟨v, hv⟩
    refine ⟨_, exec_withSlots hwin hnot h, ?_⟩
    by_cases hclear : i = .rbClear
    · subst hclear
      cases h
      exact hiddenSlots_of_empty hlen rfl
    · exact hiddenSlots_of_sameRing hhid ((exec_effect h).sameRing hnot hclear)

/-- States that differ in their slots only have been answered alike. -/
theorem responses_of_hiddenSlots (h : SameButHiddenSlots s t) : t.responses = s.responses := by
  obtain ⟨hslots, -, -⟩ := h
  rw [hslots]

/-- An operation answers alike whatever the hidden slots hold, and keeps them hidden. -/
theorem serve_hiddenSlots (hs : s.Inv) {s' : State} (hhid : SameButHiddenSlots s s') {op : Op}
    (h : serve op s = .next t) : ∃ t', serve op s' = .next t' ∧ SameButHiddenSlots t t' := by
  obtain ⟨slots, rfl⟩ : ∃ slots, s' = s.withSlots slots := ⟨_, hhid.1⟩
  rcases serve_cases op s with ⟨rfl, hu⟩ | ⟨w, r, rfl, hd, hu⟩ | ⟨w, i, rfl, hd, hu⟩ <;> rw [hu] at h
  · cases h
    exact ⟨_, serve_tickIn _, hiddenSlots_of_sameRing (t := s.tickAll) hhid ⟨rfl, rfl, rfl⟩⟩
  · cases h
    exact ⟨_, serveCommand_of_illegal hd _,
      hiddenSlots_of_sameRing (t := s.raiseCmdError .ill) hhid ⟨rfl, rfl, rfl⟩⟩
  · obtain ⟨t', ht', hhid'⟩ := exec_hiddenSlots hs hhid h
    exact ⟨t', (serveCommand_of_decode hd _).trans ht', hhid'⟩

/-- Settles O49, by induction on the operations, with the invariant of the first state kept along the run. -/
theorem slotsOutsideTheWindowAreNeverSeen : Obligations.SlotsOutsideTheWindowAreNeverSeen := by
  intro ops
  induction ops with
  | nil => exact fun s s' _ hhid => ⟨s, s', rfl, rfl, responses_of_hiddenSlots hhid, hhid⟩
  | cons op ops ih =>
    intro s s' hs hhid
    obtain ⟨u, hu⟩ := serve_next op s
    obtain ⟨u', hu', hhid'⟩ := serve_hiddenSlots hs hhid hu
    rw [runOps_cons hu, runOps_cons hu']
    exact ih u u' (serve_inv hu hs) hhid'

end Sys2Proof.Machine
end

section
/-! PROOFS. The memory family (20_memory.md): a command that succeeds, repeated at once, for the reading commands (R50)
and the idempotent ones (R51). -/

namespace Sys2Proof.Machine

variable {s t : State}

/-! ### A success and its repetition -/

/-- The command succeeds in `s` with the answer `w`, leaving `t`; repeated in `t` it answers `w` and does
nothing else. -/
def RepeatsItsAnswer (i : Instr) (s t : State) (w : Word) : Prop :=
  exec i s = .next t ∧ Answers s t true w ∧ exec i t = .next (t.respond true w)

/-- Responding and nothing else is what claims call changing no state element (R50). -/
theorem respond_onlyAnswers (s : State) (w : Word) : OnlyAnswers s (s.respond true w) w :=
  ⟨rfl, ⟨rfl, rfl⟩, ⟨rfl, rfl, rfl⟩, rfl, rfl, rfl, rfl⟩

/-- A step gives one answer. -/
theorem answers_word_unique {ok ok' : Bool} {w w' : Word} (h : Answers s t ok w) (h' : Answers s t ok' w') :
    w = w' := by
  have heq := h.symm.trans h'
  simp only [List.cons.injEq, Response.mk.injEq] at heq
  obtain ⟨⟨-, hw⟩, -⟩ := heq
  exact hw

/-! ### The reading commands (R50) -/

/-- A command that answers a word `f` of the descriptor it names is refused, or answers the same word again: responding
keeps the table. -/
theorem descrReading_repeats {i : Instr} {idx : Octet} {f : Descr → Word}
    (hexec : ∀ u, exec i u = .next (u.withDescr idx fun d => u.respond true (f d))) :
    (∃ e, exec i s = .next (s.raiseCmdError e)) ∨ ∃ w, RepeatsItsAnswer i s (s.respond true w) w := by
  rcases withDescr_cases s idx fun d => s.respond true (f d) with ⟨-, h⟩ | ⟨d, -, hd, h⟩
  · exact .inl ⟨_, (hexec s).trans (congrArg _ h)⟩
  · have hrep := withDescr_of_lt (s := s.respond true (f d)) hd fun d' => (s.respond true (f d)).respond true (f d')
    exact .inr ⟨f d, (hexec s).trans (congrArg _ h), rfl, (hexec _).trans (congrArg _ hrep)⟩

/-- A reading command is refused, or only answers; what it answers does not depend on the responses given before. -/
theorem readsOnly_repeats {i : Instr} (hi : ReadsOnly i) (s : State) :
    (∃ e, exec i s = .next (s.raiseCmdError e)) ∨ ∃ w, RepeatsItsAnswer i s (s.respond true w) w := by
  rcases hi with hi | ⟨idx, rfl | rfl⟩
  · simp only [List.mem_cons, List.not_mem_nil, or_false] at hi
    rcases hi with rfl | rfl | rfl | rfl | rfl | rfl | rfl <;> exact .inr ⟨_, rfl, rfl, rfl⟩
  · exact descrReading_repeats fun _ => rfl
  · exact descrReading_repeats (f := fun d => halfWord d.per) fun _ => rfl

/-- Settles O57: a success is told from a refusal by its response, and its word is the one answered. -/
theorem readingCommandsChangeNothing : Obligations.ReadingCommandsChangeNothing := by
  intro i s hi
  rcases readsOnly_repeats hi s with ⟨e, hexec⟩ | ⟨v, hexec, hans, hrep⟩
  · exact ⟨_, hexec, fun w hw => absurd rfl (raiseCmdError_ne_success hw)⟩
  · refine ⟨_, hexec, fun w hw => ?_⟩
    obtain rfl := answers_word_unique hans hw
    exact ⟨respond_onlyAnswers s v, _, hrep, rfl⟩

/-! ### The idempotent commands (R51) -/

theorem init_init (d : Descr) : d.init.init = d.init := rfl

/-- SCH_INIT repeated finds every descriptor as it would leave it (R75). -/
theorem schInit_repeats (s : State) :
    RepeatsItsAnswer .schInit s ({ s with table := s.table.map Descr.init }.respond true 0#32) 0#32 := by
  refine ⟨rfl, rfl, ?_⟩
  simp only [exec, execSchInit, respond_table, List.map_map, Function.comp_def, init_init]
  rfl

/-- RB_CLEAR repeated finds CNT and WIX 0 (42_ringbuffer.md R102). -/
theorem rbClear_repeats (s : State) :
    RepeatsItsAnswer .rbClear s ({ s with cnt := 0#8, wix := 0#8 }.respond true 0#32) 0#32 := ⟨rfl, rfl, rfl⟩

/-- Writing the same PER[i] twice is writing it once, whatever is answered in between. -/
theorem setPer_respond_setPer (s : State) (i : Nat) (period : Half) (ok : Bool) (w : Word) :
    ((s.setPer i period).respond ok w).setPer i period = (s.setPer i period).respond ok w := by
  simp only [State.setPer, State.respond, List.modify_modify_eq, Function.comp_def]

/-- SCH_SETPER on a descriptor of the table, with a period that is not 0 (R80). -/
theorem exec_schSetper_of_lt {idx : Octet} {period : Half} (hidx : idx.toNat < s.nTask) (hp : period ≠ 0#16) :
    exec (.schSetper idx period) s = .next ((s.setPer idx.toNat period).respond true 0#32) := by
  obtain ⟨d, hd⟩ := exists_descr hidx
  simp only [exec, execSchSetper, withDescr_of_lt hd, if_neg hp]

/-- SCH_SETPER is refused, or repeated it names the same descriptor, which holds the period already (R80). -/
theorem schSetper_repeats (idx : Octet) (period : Half) (s : State) :
    (∃ e, exec (.schSetper idx period) s = .next (s.raiseCmdError e)) ∨
      ∃ t w, RepeatsItsAnswer (.schSetper idx period) s t w := by
  obtain ⟨t, ht⟩ := exec_next (.schSetper idx period) s
  cases exec_effect ht with
  | refused _ e => exact .inl ⟨e, ht⟩
  | read _ w hi => simp [ReadsOnly] at hi
  | format _ v hi => simp at hi
  | setper _ _ hidx hp =>
    have hidx' : idx.toNat < ((s.setPer idx.toNat period).respond true 0#32).nTask := by simpa [State.nTask] using hidx
    exact .inr ⟨_, 0#32, ht, rfl, by rw [exec_schSetper_of_lt hidx' hp, setPer_respond_setPer]⟩

/-- Formatting a value FBUF holds already only answers (R115). -/
theorem format_of_fbuf {v : Nat} (hv : v ≤ 99) (hf : s.fbuf = fmtText v) : s.format v = s.respond true (fmtText v) := by
  rw [State.format, if_neg (Nat.not_lt.mpr hv), ← hf]

/-- A format command is refused, or repeated it formats the same value: the text goes to FBUF, and no value is read from
there (R115, R119). -/
theorem format_repeats {i : Instr} {value : State → Nat} (hexec : ∀ u, exec i u = .next (u.format (value u)))
    (hvalue : ∀ fbuf w, value ({ s with fbuf := fbuf }.respond true w) = value s) :
    (∃ e, exec i s = .next (s.raiseCmdError e)) ∨ ∃ t w, RepeatsItsAnswer i s t w := by
  rcases format_cases s (value s) with ⟨-, h⟩ | ⟨hv, h⟩
  · exact .inl ⟨_, (hexec s).trans (congrArg _ h)⟩
  · refine .inr ⟨_, fmtText (value s), (hexec s).trans (congrArg _ h), rfl, ?_⟩
    rw [hexec, hvalue, format_of_fbuf hv rfl]

/-- The average is read from the ring buffer only (42_ringbuffer.md R105). -/
theorem average_congr (h : SameRing s t) : t.average = s.average := by
  have ⟨_, _, hcnt⟩ := h
  simp only [State.average, window_congr h, hcnt]

/-- Settles O58: each of the five commands finds in place, on its repetition, what it writes. -/
theorem repeatingAnIdempotentCommandChangesNothing : Obligations.RepeatingAnIdempotentCommandChangesNothing := by
  intro i s hi
  have hcases : (∃ e, exec i s = .next (s.raiseCmdError e)) ∨ ∃ t w, RepeatsItsAnswer i s t w := by
    simp only [List.mem_cons, List.not_mem_nil, or_false] at hi
    rcases hi with (rfl | rfl | rfl) | ⟨idx, period, rfl⟩ | ⟨v, rfl⟩
    · exact .inr ⟨_, _, schInit_repeats s⟩
    · exact .inr ⟨_, _, rbClear_repeats s⟩
    · exact format_repeats (fun _ => rfl) fun _ _ => average_congr ⟨rfl, rfl, rfl⟩
    · exact schSetper_repeats idx period s
    · exact format_repeats (value := fun _ => v.toNat) (fun _ => rfl) fun _ _ => rfl
  rcases hcases with ⟨e, hexec⟩ | ⟨t, v, hexec, hans, hrep⟩
  · exact ⟨_, hexec, fun w hw => absurd rfl (raiseCmdError_ne_success hw)⟩
  · refine ⟨t, hexec, fun w hw => ⟨_, hrep, ?_⟩⟩
    obtain rfl := answers_word_unique hans hw
    exact respond_onlyAnswers t v

end Sys2Proof.Machine
end

section
/-! PROOFS. The encoding family (30_encoding.md): the word of a command and the command of a word (R61 to R66), the illegal
words (R63, R67), the tick pulse (R64), and the pseudo-commands (R71). -/

namespace Sys2Proof.Machine

variable {s : State}

/-! ### Words and commands -/

/-- Every command's word is in a row of the opcode map, which reads the command back (R62, R65). -/
theorem encode_in_row : ∀ i : Instr, Laws.Encoding.Statement i
  | .schInit => Laws.Encoding.schInit
  | .schSetper idx period => Laws.Encoding.schSetper idx period
  | .schTick => Laws.Encoding.schTick
  | .schRddesc idx => Laws.Encoding.schRddesc idx
  | .schRdper idx => Laws.Encoding.schRdper idx
  | .schRdready => Laws.Encoding.schRdready
  | .dspStep => Laws.Encoding.dspStep
  | .dspDone => Laws.Encoding.dspDone
  | .dspRdstat => Laws.Encoding.dspRdstat
  | .rbClear => Laws.Encoding.rbClear
  | .rbPush value => Laws.Encoding.rbPush value
  | .rbAvg => Laws.Encoding.rbAvg
  | .rbLast => Laws.Encoding.rbLast
  | .rbStat => Laws.Encoding.rbStat
  | .fmtVal value => Laws.Encoding.fmtVal value
  | .fmtAvg => Laws.Encoding.fmtAvg
  | .fmtRdbuf => Laws.Encoding.fmtRdbuf
  | .ctlRdstatus => Laws.Encoding.ctlRdstatus
  | .ctlClrerr => Laws.Encoding.ctlClrerr

/-- Settles O1: the row of the command's word is the row the decoder finds, and it builds the command from the word's
fields. -/
theorem decodeEncodeRoundTrip : Obligations.DecodeEncodeRoundTrip := by
  intro i
  obtain ⟨r, hr, hmatch, hbuild⟩ := encode_in_row i
  rw [decode_of_row hr hmatch, hbuild]

/-- The word a row matches is the encoding of the command the row builds: the fields the encoder leaves 0 are those the
row does not use (R63). -/
theorem encode_build_of_match {r : Row} (hr : r ∈ rows) {w : Word} (h : w &&& r.mask = r.pattern) :
    encode (r.build (idxField w) (immField w)) = w := by
  obtain ⟨hop, hidx, himm⟩ := (row_matches_iff hr w).mp h
  have hidx' : (if r.usesIdx then idxField w else 0#8) = idxField w :=
    ite_eq_left_iff.mpr fun hu => (hidx (Bool.eq_false_of_not_eq_true hu)).symm
  have himm' : (if r.usesImm then immField w else 0#16) = immField w :=
    ite_eq_left_iff.mpr fun hu => (himm (Bool.eq_false_of_not_eq_true hu)).symm
  rw [encode_build r hr, hidx', himm', ← hop, c32_fields]

/-- Settles O2: a command comes from a row that matches the word. -/
theorem decodedWordIsItsEncoding : Obligations.DecodedWordIsItsEncoding := by
  intro w i h
  obtain ⟨r, hr, hmatch, rfl⟩ := row_of_decode h
  exact encode_build_of_match hr hmatch

/-! ### Legal and illegal words -/

/-- At most one row matches a word: a row that matches has the word's OP (R65). -/
theorem row_of_match_unique {r q : Row} (hr : r ∈ rows) (hq : q ∈ rows) {w : Word} (hrm : w &&& r.mask = r.pattern)
    (hqm : w &&& q.mask = q.pattern) : q = r := by
  have ⟨hrop, _⟩ := (row_matches_iff hr w).mp hrm
  have ⟨hqop, _⟩ := (row_matches_iff hq w).mp hqm
  exact row_eq_of_op hq hr (hqop.symm.trans hrop)

theorem decodes_iff_row_matches (w : Word) : (∃ i, decode w = .ok i) ↔ ∃ r ∈ rows, w &&& r.mask = r.pattern := by
  constructor
  · rintro ⟨i, h⟩
    obtain ⟨r, hr, hmatch, -⟩ := row_of_decode h
    exact ⟨r, hr, hmatch⟩
  · rintro ⟨r, hr, hmatch⟩
    exact ⟨_, decode_of_row hr hmatch⟩

/-- Settles O3: a row that matches is the row the decoder finds, and no second row has its OP. -/
theorem legalWordsMatchExactlyOneRow : Obligations.LegalWordsMatchExactlyOneRow := by
  intro w
  refine ⟨decodes_iff_row_matches w, fun r hr hrm => ⟨decode_of_row hr hrm, fun q hq hqm => ?_⟩⟩
  rw [row_of_match_unique hr hq hrm hqm]

/-- The OPs of the opcode map (R65). -/
theorem rows_ops : rows.map Row.op =
    [0x10#8, 0x11#8, 0x12#8, 0x13#8, 0x14#8, 0x15#8, 0x20#8, 0x21#8, 0x22#8, 0x30#8, 0x31#8, 0x32#8, 0x33#8, 0x34#8,
      0x40#8, 0x41#8, 0x42#8, 0xF0#8, 0xF1#8] := rfl

/-- The OPs of the commands that use IDX, and of those that use IMM (R65). -/
theorem rows_users : ∀ r ∈ rows,
    (r.usesIdx = true ↔ r.op ∈ ([0x11#8, 0x13#8, 0x14#8] : List Octet)) ∧
      (r.usesImm = true ↔ r.op ∈ ([0x11#8, 0x31#8, 0x40#8] : List Octet)) := by decide

/-- A word is a command when its OP is in the opcode map and it is 0 in the fields that command does not use (R63). -/
theorem decodes_iff_fields (w : Word) : (∃ i, decode w = .ok i) ↔
    opField w ∈ rows.map Row.op ∧
      (idxField w = 0#8 ∨ opField w ∈ ([0x11#8, 0x13#8, 0x14#8] : List Octet)) ∧
      (immField w = 0#16 ∨ opField w ∈ ([0x11#8, 0x31#8, 0x40#8] : List Octet)) := by
  have hrow (r : Row) (hr : r ∈ rows) : w &&& r.mask = r.pattern ↔ opField w = r.op ∧
      (idxField w = 0#8 ∨ r.op ∈ ([0x11#8, 0x13#8, 0x14#8] : List Octet)) ∧
      (immField w = 0#16 ∨ r.op ∈ ([0x11#8, 0x31#8, 0x40#8] : List Octet)) := by
    obtain ⟨hidx, himm⟩ := rows_users r hr
    simp only [row_matches_iff hr, ← hidx, ← himm, or_iff_not_imp_right, Bool.not_eq_true]
  rw [decodes_iff_row_matches, List.mem_map]
  constructor
  · rintro ⟨r, hr, hmatch⟩
    obtain ⟨hop, hfields⟩ := (hrow r hr).mp hmatch
    exact ⟨⟨r, hr, hop.symm⟩, hop ▸ hfields⟩
  · rintro ⟨⟨r, hr, hop⟩, hfields⟩
    exact ⟨r, hr, (hrow r hr).mpr ⟨hop.symm, hop ▸ hfields⟩⟩

/-- A word that is no command is refused with code 1 (R67). -/
theorem serveCommand_of_not_decodes {w : Word} (h : ¬ ∃ i, decode w = .ok i) (s : State) :
    serveCommand w s = .next (s.raiseCmdError .ill) := by
  cases hw : decode w with
  | ok i => exact absurd ⟨i, hw⟩ h
  | error r => exact serveCommand_of_illegal hw s

/-- Settles O4: the three ways to be illegal are the ways to fail `decodes_iff_fields`. -/
theorem illegalWordsAreRefusedWithCode1 : Obligations.IllegalWordsAreRefusedWithCode1 := by
  intro w s ops illegal
  have hlegal : ¬ illegal ↔ ∃ i, decode w = .ok i := by
    simp only [decodes_iff_fields, rows_ops, illegal, ops, not_or, not_and_or, not_not, ne_eq]
  constructor
  · intro hill
    exact ⟨_, serveCommand_of_not_decodes (fun hdec => hlegal.mpr hdec hill) s, raiseCmdError_refused s .ill⟩
  · intro hleg
    obtain ⟨i, hi⟩ := hlegal.mp hleg
    exact ⟨i, hi, serveCommand_of_decode hi s⟩

/-- Settles O5: six of the words are encodings (`decodeEncodeRoundTrip`), and the decoder runs on the three others. -/
theorem specExampleWordsDecode : Obligations.SpecExampleWordsDecode :=
  ⟨decodeEncodeRoundTrip .schInit, decodeEncodeRoundTrip (.schSetper 2 10), decodeEncodeRoundTrip (.schRddesc 1),
    decodeEncodeRoundTrip (.rbPush 30), decodeEncodeRoundTrip (.fmtVal 23), decodeEncodeRoundTrip .dspStep,
    by decide, by decide, by decide⟩

/-! ### The tick pulse -/

/-- Settles O7: both apply `State.tickAll`, and only the command responds. -/
theorem tickPulseIsSchTickWithoutItsResponse : Obligations.TickPulseIsSchTickWithoutItsResponse := by
  intro s rest
  refine ⟨_, rfl, fun hpulse => ?_, fun hword => ?_⟩
  · rw [step_of_inputs_cons hpulse, serve_tickIn]
    rfl
  · exact stepRunsTheDecodedCommand s _ rest .schTick hword (decodeEncodeRoundTrip .schTick)

/-! ### The pseudo-commands -/

/-- Serving the word of a command is executing the command. -/
theorem serve_encode (i : Instr) (s : State) : serve (.command (encode i)) s = exec i s :=
  serveCommand_of_decode (decodeEncodeRoundTrip i) s

/-- The operation `SCH_SETPER i, period` of an expansion (R71). -/
def setperOp (i : Nat) (period : Half) : Op := .command (encode (.schSetper (BitVec.ofNat 8 i) period))

/-- The assembler's word for SCH_SETPER, when the operands fit their fields (R70). -/
theorem packCommand_setper {i p : Nat} (hi : i ≤ 255) (hp : p ≤ 65535) :
    packCommand 0x11#8 i p = .ok (encode (.schSetper (BitVec.ofNat 8 i) (BitVec.ofNat 16 p))) := by
  simp only [packCommand, operandsFit, hi, hp, decide_true, Bool.and_self, if_true, encode]

/-- The SCH_SETPERs of SCH_CONFIG, from descriptor `i` on: one a period, in the order of the periods (R71). -/
theorem setperOps_eq {i : Nat} {periods : List Nat} (hi : i + periods.length ≤ 256) (hp : ∀ p ∈ periods, p ≤ 65535) :
    setperOps i periods =
      .ok ((List.range periods.length).map fun j => setperOp (i + j) (BitVec.ofNat 16 (periods.getD j 0))) := by
  induction periods generalizing i with
  | nil => rfl
  | cons p ps ih =>
    rw [List.length_cons] at hi
    obtain ⟨hhead, htail⟩ := List.forall_mem_cons.mp hp
    have hrest := ih (i := i + 1) (by omega) htail
    simp only [setperOps, packCommand_setper (show i ≤ 255 by omega) hhead, hrest, List.length_cons,
      List.range_succ_eq_map, List.map_cons, List.map_map, Function.comp_def, Nat.add_right_comm i 1, List.getD_cons_succ,
      List.getD_cons_zero, Nat.add_zero]
    rfl

/-- PER after writing one of the periods. -/
theorem setPer_perAt (s : State) (i j : Nat) (period : Half) :
    (s.setPer i period).perAt j = (s.perAt j).map (fun a => if i = j then period else a) := by
  simp only [State.perAt, setPer_getElem?, Option.map_map, Function.comp_def, apply_ite Descr.per]

/-- SCH_SETPER for descriptors 0 to n-1 in turn, each with a period that is not 0: each write succeeds and keeps the
earlier ones (40_scheduler.md R80). -/
theorem runOps_setperOps {period : Nat → Half} {n : Nat} (hs : s.nTask ≤ 256) (hn : n ≤ s.nTask)
    (hp : ∀ i < n, period i ≠ 0#16) :
    ∃ t, runOps ((List.range n).map fun i => setperOp i (period i)) s = .next t ∧ t.nTask = s.nTask ∧
      ∀ i < n, t.perAt i = some (period i) := by
  induction n with
  | zero => exact ⟨s, rfl, rfl, by simp⟩
  | succ n ih =>
    obtain ⟨t, ht, hsize, hper⟩ := ih (by omega) fun i hi => hp i (by omega)
    have hidx : (BitVec.ofNat 8 n).toNat = n := Nat.mod_eq_of_lt (by omega)
    have hlast := exec_schSetper_of_lt (s := t) (idx := BitVec.ofNat 8 n) (by omega) (hp n (by omega))
    rw [hidx] at hlast
    obtain ⟨d, hd⟩ := exists_descr (s := t) (i := n) (by omega)
    refine ⟨(t.setPer n (period n)).respond true 0#32, ?_, ?_, fun i hi => ?_⟩
    · rw [List.range_succ, List.map_append, runOps_append ht]
      exact runOps_cons ((serve_encode _ t).trans hlast) []
    · rw [respond_nTask, setPer_nTask, hsize]
    · change (t.setPer n (period n)).perAt i = _
      rw [setPer_perAt]
      by_cases hin : i = n
      · subst hin
        simp [State.perAt, hd]
      · simp [hper i (by omega), Ne.symm hin]

/-- SCH_INIT leaves every descriptor STANDBY with EL 0, and its period (R75). -/
theorem exec_schInit_columns (s : State) : ∃ t, exec .schInit s = .next t ∧ t.nTask = s.nTask ∧
    ∀ i < s.nTask, t.stAt i = some .standby ∧ t.elAt i = some 0#16 ∧ t.perAt i = s.perAt i := by
  refine ⟨_, rfl, by simp [State.nTask], fun i hi => ?_⟩
  obtain ⟨d, hd⟩ := exists_descr hi
  simp [State.stAt, State.elAt, State.perAt, hd, Descr.init]

/-- What SCH_CONFIG stands for (R71). -/
theorem configOps_eq {nTask : Nat} {periods : List Nat} (hlen : periods.length = nTask) (hn : nTask ≤ 256)
    (hp : ∀ p ∈ periods, p ≤ 65535) :
    configOps nTask periods =
      .ok ((List.range nTask).map (fun i => setperOp i (BitVec.ofNat 16 (periods.getD i 0))) ++
        [.command (encode .schInit)]) := by
  simp only [configOps, hlen, if_true, setperOps_eq (i := 0) (by omega) hp, Nat.zero_add]

/-- Settles O60: NOP is CTL_RDSTATUS, which only answers; SCH_CONFIG writes the periods (`runOps_setperOps`), and the
SCH_INIT after it keeps them. -/
theorem pseudoCommandsDoWhatTheyStandFor : Obligations.PseudoCommandsDoWhatTheyStandFor := by
  intro s hs
  obtain ⟨-, hmax⟩ := hs.nTask_range
  refine ⟨⟨rfl, _, _, runOps_cons (serve_encode .ctlRdstatus s) [], respond_onlyAnswers s s.status⟩, ?_⟩
  intro periods hlen hp
  have hnonzero : ∀ i < s.nTask, BitVec.ofNat 16 (periods.getD i 0) ≠ 0#16 := fun i hi hzero => by
    obtain ⟨hlow, hhigh⟩ := hp (periods.getD i 0) (by simp [hlen, hi])
    have := congrArg BitVec.toNat hzero
    simp only [BitVec.toNat_ofNat] at this
    omega
  obtain ⟨u, hu, husize, hper⟩ := runOps_setperOps (s := s) (by omega) le_rfl hnonzero
  obtain ⟨t, ht, htsize, hcols⟩ := exec_schInit_columns u
  refine ⟨_, t, configOps_eq hlen (by omega) fun p hpm => (hp p hpm).2, rfl, ?_, by omega, ?_⟩
  · rw [runOps_append hu]
    exact runOps_cons ((serve_encode .schInit u).trans ht) []
  · intro i p hi
    have hlt : i < s.nTask := hlen ▸ (List.getElem?_eq_some_iff.mp hi).1
    obtain ⟨hst, hel, hkept⟩ := hcols i (by omega)
    refine ⟨hst, hel, ?_⟩
    rw [hkept, hper i hlt, List.getD_eq_getElem?_getD, hi, Option.getD_some]

end Sys2Proof.Machine
end

section
/-! PROOFS. The scheduler family (40_scheduler.md): what SCH_INIT, a tick and SCH_SETPER leave in the table, what the
reading commands answer (R75 to R88), and crossings under the dispatcher (R89, R90). -/

namespace Sys2Proof.Machine

variable {s t : State}

/-! ### Reading and writing one column -/

/-- ST[i] is what was written, when descriptor i exists. -/
theorem setSt_stAt_self {i : Nat} (hi : i < s.nTask) (st : TaskState) : (s.setSt i st).stAt i = some st := by
  obtain ⟨d, hd⟩ := exists_descr hi
  simp [State.stAt, hd]

/-- PER[i] is what was written, when descriptor i exists. -/
theorem setPer_perAt_self {i : Nat} (hi : i < s.nTask) (period : Half) : (s.setPer i period).perAt i = some period := by
  obtain ⟨d, hd⟩ := exists_descr hi
  simp [State.perAt, hd]

/-- Only PER[i] is written. -/
theorem setPer_perAt_of_ne (s : State) {i j : Nat} (h : i ≠ j) (period : Half) :
    (s.setPer i period).perAt j = s.perAt j := by
  simp [setPer_perAt, h]

theorem elAt_lt_nTask {i : Nat} {el : Half} (h : s.elAt i = some el) : i < s.nTask := by
  obtain ⟨d, hd, -⟩ := elAt_eq_some.mp h
  exact table_lt_nTask hd

theorem stAt_lt_nTask {i : Nat} {st : TaskState} (h : s.stAt i = some st) : i < s.nTask := by
  obtain ⟨d, hd, -⟩ := stAt_eq_some.mp h
  exact table_lt_nTask hd

/-- The descriptor whose EL and PER are read. -/
theorem exists_descr_of_counters {i : Nat} {el per : Half} (hel : s.elAt i = some el) (hper : s.perAt i = some per) :
    ∃ d, s.table[i]? = some d ∧ d.el = el ∧ d.per = per := by
  obtain ⟨d, hd, hdel⟩ := elAt_eq_some.mp hel
  exact ⟨d, hd, hdel, by simpa [State.perAt, hd] using hper⟩

/-- A crossing tick makes descriptor i READY with EL = 0 (R77, R78). -/
theorem tickAll_columns_of_crosses {i : Nat} {el per : Half} (hel : s.elAt i = some el) (hper : s.perAt i = some per)
    (h : per.toNat ≤ el.toNat + 1) : s.tickAll.stAt i = some .ready ∧ s.tickAll.elAt i = some 0#16 := by
  obtain ⟨d, hd, rfl, rfl⟩ := exists_descr_of_counters hel hper
  simp [State.stAt, State.elAt, hd, tick_of_crosses h]

/-- A tick that does not cross keeps ST[i] and counts (R77). -/
theorem tickAll_columns_of_not_crosses {i : Nat} {el per : Half} (hel : s.elAt i = some el)
    (hper : s.perAt i = some per) (h : el.toNat + 1 < per.toNat) :
    s.tickAll.stAt i = s.stAt i ∧ ∃ e, s.tickAll.elAt i = some e ∧ e.toNat = el.toNat + 1 := by
  obtain ⟨d, hd, rfl, rfl⟩ := exists_descr_of_counters hel hper
  refine ⟨?_, _, ?_, el_succ_toNat h⟩
  · simp [State.stAt, hd, tick_of_not_crosses h]
  · simp [State.elAt, hd, tick_of_not_crosses h]

/-- A tick leaves a READY descriptor READY, crossing or not (R89). -/
theorem tickAll_stAt_of_ready {i : Nat} (h : s.stAt i = some .ready) : s.tickAll.stAt i = some .ready := by
  obtain ⟨d, hd⟩ := exists_descr (s := s.tickAll) (tickAll_nTask s ▸ stAt_lt_nTask h)
  have hst : s.tickAll.stAt i = some d.st := stAt_eq_some.mpr ⟨d, hd, rfl⟩
  by_cases hne : TaskState.ready = d.st
  · rw [hst, ← hne]
  · obtain ⟨hready, -⟩ := tickAll_st_change h hst hne
    rw [hst, hready]

/-- A run visit makes the descriptor at CUR EXECUTE (41_dispatcher.md R91). -/
theorem runVisit_stAt_cur (h : s.cur.toNat < s.nTask) : s.runVisit.stAt s.cur.toNat = some .execute :=
  setSt_stAt_self h .execute

/-- The end of a handler makes the descriptor at CUR STANDBY (R94). -/
theorem endHandler_stAt_cur (h : s.cur.toNat < s.nTask) : s.endHandler.stAt s.cur.toNat = some .standby :=
  setSt_stAt_self h .standby

/-- The end of a handler keeps every EL (R83). -/
theorem endHandler_elAt (s : State) (j : Nat) : s.endHandler.elAt j = s.elAt j := setSt_elAt s s.cur.toNat j .standby

/-! ### SCH_INIT (R75, R76) -/

/-- SCH_INIT leaves descriptor i STANDBY with EL = 0 (R75). -/
theorem exec_schInit_cleared (h : exec .schInit s = .next t) {i : Nat} (hi : i < s.nTask) :
    t.stAt i = some .standby ∧ t.elAt i = some 0#16 := by
  obtain ⟨u, hu, -, hcols⟩ := exec_schInit_columns s
  obtain ⟨hst, hel, -⟩ := hcols i hi
  cases hu.symm.trans h
  exact ⟨hst, hel⟩

/-- Settles O21: the columns are those of `exec_schInit_cleared`, PER is kept, and the repetition is `schInit_repeats`. -/
theorem schInitResult : Obligations.SchInitResult := by
  refine ⟨rfl, fun s => ?_⟩
  obtain ⟨ht, hans, hrep⟩ := schInit_repeats s
  have heff := exec_effect ht
  obtain ⟨hn, -⟩ := heff.sizes
  exact ⟨_, ht, hn, fun _ => exec_schInit_cleared ht, heff.perAt (by simp), ⟨rfl, rfl⟩, ⟨rfl, rfl, rfl⟩, rfl, rfl, rfl,
    hans, hrep⟩

/-- Settles O22: SCH_INIT keeps CUR, BUSY and NTASK, so DSP_DONE ends the handler at the same index. -/
theorem schInitUnderARunningHandler : Obligations.SchInitUnderARunningHandler := by
  intro s hs hbusy
  obtain ⟨t, ht⟩ := exec_next .schInit s
  have heff := exec_effect ht
  obtain ⟨hn, -⟩ := heff.sizes
  have ⟨hcur, hbusy'⟩ := heff.sameDispatcher (by simp)
  have htInv := heff.inv hs
  obtain ⟨hpos, hmax⟩ := htInv.nTask_range
  refine ⟨t, t.endHandler, _, ht, ⟨hcur, hbusy'⟩, fun _ => exec_schInit_cleared ht,
    exec_dspDone_of_busy (hbusy'.trans hbusy), rfl, ?_, rfl, ?_⟩
  · exact hcur ▸ endHandler_stAt_cur htInv.cur_lt
  · rw [endHandler_cur, nextCur_toNat (by omega) hpos, hcur, hn]

/-! ### SCH_TICK (R77) and SCH_SETPER (R80, R81) -/

/-- Settles O23: crossing or not, descriptor by descriptor; the pulse writes the same table. -/
theorem schTickResult : Obligations.SchTickResult :=
  ⟨rfl, fun s => ⟨s.tickAll.respond true 0#32, rfl, tickAll_nTask s,
    fun _ _ _ hel hper h => tickAll_columns_of_crosses hel hper h,
    fun _ _ _ hel hper h => tickAll_columns_of_not_crosses hel hper h,
    tickAll_perAt s, ⟨rfl, rfl⟩, ⟨rfl, rfl, rfl⟩, rfl, rfl, rfl, rfl, rfl⟩⟩

/-- SCH_SETPER of no descriptor: BADIDX, whatever the period is (R80, R133). -/
theorem exec_schSetper_of_ge {idx : Octet} (hidx : s.nTask ≤ idx.toNat) (period : Half) :
    exec (.schSetper idx period) s = .next (s.raiseCmdError .badIdx) :=
  congrArg _ (withDescr_of_ge hidx _)

/-- SCH_SETPER with period 0: BADPER, when the index is in range (R80). -/
theorem exec_schSetper_zero {idx : Octet} (hidx : idx.toNat < s.nTask) :
    exec (.schSetper idx 0#16) s = .next (s.raiseCmdError .badPer) := by
  obtain ⟨d, hd⟩ := exists_descr hidx
  exact congrArg _ (withDescr_of_lt hd _)

/-- Settles O25: out of range, period 0, or a write of PER[IDX] alone. -/
theorem schSetperResult : Obligations.SchSetperResult := by
  intro s idx period
  have henc : encode (.schSetper idx period) = c32 0x11#8 idx period := rfl
  have hmask : 0xFF000000#32 = c32 0xFF#8 0#8 0#16 := rfl
  refine ⟨?_, by rw [henc, idxField_c32], by rw [henc, immField_c32], ?_⟩
  · rw [henc, hmask, c32_and, BitVec.and_zero, BitVec.and_zero]
    rfl
  rcases Nat.lt_or_ge idx.toNat s.nTask with hidx | hidx
  · by_cases hp : period = 0#16
    · subst hp
      exact ⟨_, exec_schSetper_zero hidx, fun h => absurd hidx (Nat.not_lt.mpr h),
        fun _ _ => raiseCmdError_refused s .badPer, fun _ h => absurd rfl h⟩
    · exact ⟨_, exec_schSetper_of_lt hidx hp, fun h => absurd hidx (Nat.not_lt.mpr h), fun _ h => absurd h hp,
        fun _ _ => ⟨setPer_nTask s _ _, setPer_perAt_self hidx period, fun i hi => setPer_perAt_of_ne s hi.symm period,
          fun i => ⟨setPer_stAt s _ i period, setPer_elAt s _ i period⟩,
          ⟨rfl, rfl⟩, ⟨rfl, rfl, rfl⟩, rfl, rfl, rfl, rfl⟩⟩
  · exact ⟨_, exec_schSetper_of_ge hidx period, fun _ => raiseCmdError_refused s .badIdx,
      fun h => absurd h (Nat.not_lt.mpr hidx), fun h => absurd h (Nat.not_lt.mpr hidx)⟩

/-- Settles O26: the tick reads the new period and the EL that SCH_SETPER left alone. -/
theorem newPeriodTakesEffectAtTheNextTick : Obligations.NewPeriodTakesEffectAtTheNextTick := by
  intro s idx period el hp hel
  have hidx := elAt_lt_nTask hel
  have hper : (s.setPer idx.toNat period).perAt idx.toNat = some period := setPer_perAt_self hidx period
  have hel : (s.setPer idx.toNat period).elAt idx.toNat = some el := (setPer_elAt s _ _ period).trans hel
  refine ⟨_, _, exec_schSetper_of_lt hidx hp, rfl, tickAll_columns_of_crosses hel hper, fun h => ?_⟩
  obtain ⟨hst, hcount⟩ := tickAll_columns_of_not_crosses hel hper h
  exact ⟨hst.trans (setPer_stAt s _ _ period), hcount⟩

/-! ### The reading commands (R84, R86, R88) -/

/-- A command that answers a word `f` of the descriptor it names: BADIDX out of range, else only the answer. -/
theorem descrReading_result {i : Instr} {idx : Octet} {f : Descr → Word}
    (hexec : exec i s = .next (s.withDescr idx fun d => s.respond true (f d))) :
    ∃ t, exec i s = .next t ∧ (s.nTask ≤ idx.toNat → RefusedWith s t .badIdx) ∧
      ∀ d, s.table[idx.toNat]? = some d → OnlyAnswers s t (f d) := by
  refine ⟨_, hexec, fun hidx => ?_, fun d hd => ?_⟩
  · rw [withDescr_of_ge hidx]
    exact raiseCmdError_refused s .badIdx
  · rw [withDescr_of_lt hd]
    exact respond_onlyAnswers s (f d)

/-- The mask of a command with an index only keeps all but the index (R62, R63). -/
theorem c32_idx_and_mask (op idx : Octet) : c32 op idx 0#16 &&& 0xFF00FFFF#32 = c32 op 0#8 0#16 := by
  have hmask : 0xFF00FFFF#32 = c32 0xFF#8 0#8 0xFFFF#16 := rfl
  have hop : op &&& 0xFF#8 = op := BitVec.and_allOnes
  rw [hmask, c32_and, BitVec.and_zero, BitVec.zero_and, hop]

/-- Settles O27: the fields of the word are those of `descrWord`. -/
theorem schRddescResult : Obligations.SchRddescResult := by
  refine ⟨rfl, rfl, rfl, fun st => by cases st <;> decide, fun s idx => ⟨c32_idx_and_mask _ _, idxField_c32 _ _ _, ?_⟩⟩
  obtain ⟨t, ht, hge, hlt⟩ := descrReading_result (s := s) (i := .schRddesc idx) (f := descrWord) rfl
  refine ⟨t, ht, hge, fun st el hst hel => ?_⟩
  obtain ⟨d, hd, rfl⟩ := stAt_eq_some.mp hst
  obtain rfl : d.el = el := by simpa [State.elAt, hd] using hel
  exact ⟨_, hlt d hd, descrWord_high d, descrWord_st d, descrWord_el d⟩

/-- Only an SCH_SETPER of descriptor j can write PER[j] (R35). -/
theorem Effect.perAt_of_ne {i : Instr} (h : Effect s i t) {j : Nat}
    (hi : ∀ idx period, i = .schSetper idx period → idx.toNat ≠ j) : t.perAt j = s.perAt j := by
  by_cases hset : ∃ idx period, i = .schSetper idx period
  · obtain ⟨idx, period, rfl⟩ := hset
    cases h with
    | setper => exact setPer_perAt_of_ne s (hi idx period rfl) period
    | _ => rfl
  · exact h.perAt (fun idx period heq => hset ⟨idx, period, heq⟩) j

/-- An operation that is no SCH_SETPER of descriptor j keeps PER[j]. -/
theorem serve_perAt {op : Op} (h : serve op s = .next t) {j : Nat}
    (hop : ∀ idx period, op.instr = some (.schSetper idx period) → idx.toNat ≠ j) : t.perAt j = s.perAt j := by
  rcases serve_effect h with ⟨-, rfl⟩ | ⟨-, -, rfl⟩ | ⟨i, hi, -, heff⟩
  · exact tickAll_perAt s j
  · rfl
  · exact heff.perAt_of_ne fun idx period heq => hop idx period (heq ▸ hi)

/-- A run without an SCH_SETPER of descriptor j keeps PER[j]. -/
theorem runOps_perAt {ops : List Op} (h : runOps ops s = .next t) {j : Nat}
    (hops : ∀ op ∈ ops, ∀ idx period, op.instr = some (.schSetper idx period) → idx.toNat ≠ j) :
    t.perAt j = s.perAt j := by
  induction ops generalizing s with
  | nil => cases h; rfl
  | cons op ops ih =>
    obtain ⟨hop, hops⟩ := List.forall_mem_cons.mp hops
    obtain ⟨u, hu⟩ := serve_next op s
    rw [runOps_cons hu] at h
    exact (ih h hops).trans (serve_perAt hu hop)

/-- SCH_RDPER of a descriptor of the table answers its period and nothing else (R86). -/
theorem exec_schRdper_of_perAt {idx : Octet} {per : Half} (h : s.perAt idx.toNat = some per) :
    exec (.schRdper idx) s = .next (s.respond true (halfWord per)) := by
  obtain ⟨d, hd, rfl⟩ := perAt_eq_some.mp h
  exact congrArg _ (withDescr_of_lt hd _)

/-- No period is 0 (R24). -/
theorem perAt_ne_zero (hs : s.Inv) {i : Nat} {per : Half} (h : s.perAt i = some per) : per ≠ 0#16 := by
  obtain ⟨d, hd, rfl⟩ := perAt_eq_some.mp h
  exact hs.per_pos d (mem_table hd)

theorem toNat_pos_of_perAt (hs : s.Inv) {i : Nat} {per : Half} (h : s.perAt i = some per) : 0 < per.toNat :=
  Nat.pos_of_ne_zero fun h0 => perAt_ne_zero hs h (BitVec.eq_of_toNat_eq h0)

/-- Settles O28: the word is PER[IDX], which only SCH_SETPER writes after reset. -/
theorem schRdperResult : Obligations.SchRdperResult := by
  refine fun s idx => ⟨c32_idx_and_mask _ _, idxField_c32 _ _ _, ?_, fun p fill ops per hops hper => ?_⟩
  · obtain ⟨t, ht, hge, hlt⟩ := descrReading_result (s := s) (i := .schRdper idx) (f := fun d => halfWord d.per) rfl
    refine ⟨t, ht, hge, fun per hper => ?_⟩
    obtain ⟨d, hd, rfl⟩ := perAt_eq_some.mp hper
    refine ⟨_, hlt d hd, halfWord_toNat d.per, fun hs hzero => ?_⟩
    have hpos := toNat_pos_of_perAt hs hper
    rw [← halfWord_toNat, hzero] at hpos
    exact absurd hpos (by decide)
  · obtain ⟨r, hr⟩ := runOps_next ops (State.resetOf p fill)
    have hreset : (State.resetOf p fill).perAt idx.toNat = some per := by
      simp [State.perAt, resetOf_getElem?, hper]
    have hkept := runOps_perAt hr (j := idx.toNat) fun op hop i period hset => absurd hset (hops op hop i period)
    exact ⟨r, _, _, hr, exec_schRdper_of_perAt (hkept.trans hreset), rfl, halfWord_toNat per⟩

/-- Bit j after the loop of SCH_RDREADY over the descriptors from index k on (R88). -/
theorem getLsbD_readyMaskFrom (k : Nat) (ds : List Descr) (m : Word) (j : Nat) :
    (readyMaskFrom k ds m).getLsbD j = true ↔
      m.getLsbD j = true ∨ j < 32 ∧ ∃ n, (ds[n]?).map Descr.st = some .ready ∧ j = k + n := by
  induction ds generalizing k m with
  | nil => simp [readyMaskFrom]
  | cons d ds ih =>
    have hbit : (if d.isReady then m ||| (1#32 <<< k) else m).getLsbD j = true ↔
        m.getLsbD j = true ∨ j < 32 ∧ d.st = .ready ∧ j = k := by
      by_cases hd : d.st = .ready
      · simp only [Descr.isReady, hd, beq_self_eq_true, if_true, BitVec.getLsbD_or, ← BitVec.twoPow_eq,
          BitVec.getLsbD_twoPow, Bool.or_eq_true, Bool.and_eq_true, decide_eq_true_eq, true_and]
        exact or_congr_right (by omega)
      · simp [Descr.isReady, hd]
    rw [readyMaskFrom, ih, hbit, or_assoc, ← and_or_left]
    refine or_congr_right (and_congr_right fun _ => ?_)
    constructor
    · rintro (⟨hd, rfl⟩ | ⟨n, hn, rfl⟩)
      · exact ⟨0, by simp [hd], rfl⟩
      · exact ⟨n + 1, by simpa using hn, by omega⟩
    · rintro ⟨_ | n, hn, hj⟩
      · exact .inl ⟨by simpa using hn, hj⟩
      · exact .inr ⟨n, by simpa using hn, by omega⟩

/-- Bit j of SCH_RDREADY's word is the READY flag of descriptor j. -/
theorem getLsbD_readyMask (s : State) (j : Nat) :
    (readyMask s.table).getLsbD j = true ↔ j < 32 ∧ s.stAt j = some .ready := by
  simp [readyMask, getLsbD_readyMaskFrom, State.stAt]

/-- Settles O29: bit i is the READY flag of descriptor i, and there is none from NTASK on. -/
theorem schRdreadyResult : Obligations.SchRdreadyResult := by
  refine ⟨rfl, fun s => ⟨_, _, rfl, respond_onlyAnswers s _, fun i hi => ?_, fun i hi => ?_⟩⟩
  · simp only [getLsbD_readyMask, hi, true_and]
  · refine Bool.eq_false_of_not_eq_true fun h => ?_
    obtain ⟨-, hready⟩ := (getLsbD_readyMask s i).mp h
    exact absurd (stAt_lt_nTask hready) (Nat.not_lt.mpr hi)

/-! ### Crossings under the dispatcher (R89, R90) -/

/-- Settles O33: the tick crosses, and the end of the handler writes STANDBY over READY. -/
theorem crossingDuringItsOwnHandlerIsLost : Obligations.CrossingDuringItsOwnHandlerIsLost := by
  intro s el per hs hbusy _ hel hper hcross
  obtain ⟨hst, hel⟩ := tickAll_columns_of_crosses hel hper hcross
  exact ⟨s.tickAll, _, rfl, hst, exec_dspDone_of_busy hbusy, endHandler_stAt_cur (inv_tickAll hs).cur_lt,
    (endHandler_elAt s.tickAll _).trans hel, rfl⟩

/-- Settles O34: READY stays READY under the tick, so the next DSP_STEP runs the handler, whose end writes STANDBY. -/
theorem crossingsOfAReadyDescriptorMerge : Obligations.CrossingsOfAReadyDescriptorMerge := by
  refine fun s hs => ⟨s.tickAll, rfl, fun _ => tickAll_stAt_of_ready, fun hbusy hready => ?_⟩
  have htick := inv_tickAll hs
  exact ⟨_, _, exec_dspStep_of_ready (s := s.tickAll) hbusy (tickAll_stAt_of_ready hready),
    runVisit_stAt_cur htick.cur_lt, exec_dspDone_of_busy rfl, endHandler_stAt_cur (inv_runVisit htick).cur_lt⟩

end Sys2Proof.Machine
end

section
/-! PROOFS. The scheduler family, the counters EL and PER over runs: the crossings of a descriptor come every PER ticks
(R82), and the counters and the dispatcher do not depend on each other (R83). -/

namespace Sys2Proof.Machine

variable {s t : State}

/-! ### Counting from a SCH_INIT (R82) -/

/-- Descriptor i has the period `per` and has counted `n` ticks: EL[i] = n mod PER[i]. -/
def HasCounted (s : State) (i : Nat) (per : Half) (n : Nat) : Prop :=
  s.perAt i = some per ∧ ∃ el, s.elAt i = some el ∧ el.toNat = n % per.toNat

/-- Counting modulo P: on to the next value, or back to 0. -/
theorem succ_mod_eq_ite {p : Nat} (hp : 0 < p) (n : Nat) : (n + 1) % p = if p ≤ n % p + 1 then 0 else n % p + 1 := by
  have hlt := Nat.mod_lt n hp
  rw [← Nat.mod_add_mod]
  split
  next h => rw [show n % p + 1 = p by omega, Nat.mod_self]
  next h => exact Nat.mod_eq_of_lt (by omega)

/-- The next tick crosses exactly when it completes a multiple of the period. -/
theorem crosses_iff_dvd {p : Nat} (hp : 0 < p) (n : Nat) : p ≤ n % p + 1 ↔ p ∣ n + 1 := by
  rw [Nat.dvd_iff_mod_eq_zero, succ_mod_eq_ite hp]
  split <;> simp [*]

/-- A tick counts one: it crosses, and EL restarts, exactly when EL + 1 reaches the period. -/
theorem HasCounted.tickAll {i : Nat} {per : Half} {n : Nat} (h : HasCounted s i per n) (hp : 0 < per.toNat) :
    HasCounted s.tickAll i per (n + 1) := by
  obtain ⟨hper, el, hel, hmod⟩ := h
  refine ⟨(tickAll_perAt s i).trans hper, ?_⟩
  rw [succ_mod_eq_ite hp, ← hmod]
  split
  next hc => exact ⟨_, (tickAll_columns_of_crosses hel hper hc).2, rfl⟩
  next hc => exact (tickAll_columns_of_not_crosses hel hper (Nat.lt_of_not_le hc)).2

/-- What keeps EL[i] and PER[i] keeps the count. -/
theorem HasCounted.congr {i : Nat} {per : Half} {n : Nat} (h : HasCounted s i per n) (hel : t.elAt i = s.elAt i)
    (hper : t.perAt i = s.perAt i) : HasCounted t i per n := by
  rwa [HasCounted, hel, hper]

/-- Serving an operation that is a command is executing it. -/
theorem serve_of_instr {op : Op} {i : Instr} (h : op.instr = some i) (s : State) : serve op s = exec i s := by
  rcases serve_cases op s with ⟨rfl, -⟩ | ⟨w, r, rfl, hd, -⟩ | ⟨w, i', rfl, hd, hs⟩
  · cases h
  · rw [instr_of_illegal hd] at h
    cases h
  · rw [instr_of_decode hd] at h
    rw [hs, Option.some.inj h]

/-- A tick of either agent writes the table of `State.tickAll` (R64). -/
theorem serve_table_of_isTick {op : Op} (hop : op.isTick = true) (h : serve op s = .next t) :
    t.table = s.tickAll.table := by
  simp only [Op.isTick, Bool.or_eq_true, beq_iff_eq] at hop
  rcases hop with rfl | hop
  · cases h
    rfl
  · rw [serve_of_instr hop] at h
    cases h
    rfl

/-- An operation that is no tick and no SCH_INIT keeps every EL (R35). -/
theorem serve_elAt {op : Op} (h : serve op s = .next t) (htick : op.isTick = false) (hinit : op.instr ≠ some .schInit)
    (j : Nat) : t.elAt j = s.elAt j := by
  rcases serve_effect h with ⟨rfl, -⟩ | ⟨-, -, rfl⟩ | ⟨i, hi, -, heff⟩
  · cases htick
  · rfl
  · exact heff.elAt (instr_ne_schTick htick hi) (fun heq => hinit (heq ▸ hi)) j

/-- What does not disturb descriptor i is no SCH_INIT and no SCH_SETPER of it. -/
theorem instr_of_not_disturbs {op : Op} {i : Nat} (h : op.disturbs i = false) :
    op.instr ≠ some .schInit ∧ ∀ idx period, op.instr = some (.schSetper idx period) → idx.toNat ≠ i := by
  refine ⟨fun hop => ?_, fun idx period hop => ?_⟩
  · simp [Op.disturbs, hop] at h
  · simpa [Op.disturbs, hop] using h

/-- An operation that does not disturb descriptor i counts exactly when it is a tick. -/
theorem serve_hasCounted {op : Op} {i : Nat} {per : Half} {n : Nat} (hc : HasCounted s i per n) (hp : 0 < per.toNat)
    (hop : op.disturbs i = false) (h : serve op s = .next t) :
    HasCounted t i per (n + if op.isTick then 1 else 0) := by
  obtain ⟨hinit, hset⟩ := instr_of_not_disturbs hop
  cases htick : op.isTick with
  | true =>
    have htable := serve_table_of_isTick htick h
    exact (hc.tickAll hp).congr (by rw [State.elAt, htable]; rfl) (by rw [State.perAt, htable]; rfl)
  | false => exact hc.congr (serve_elAt h htick hinit i) (serve_perAt h hset)

/-- A run that does not disturb descriptor i counts its ticks. -/
theorem runOps_hasCounted {ops : List Op} {i : Nat} {per : Half} {n : Nat} (hc : HasCounted s i per n)
    (hp : 0 < per.toNat) (hops : ∀ op ∈ ops, op.disturbs i = false) (h : runOps ops s = .next t) :
    HasCounted t i per (n + ticksIn ops) := by
  induction ops generalizing s n with
  | nil => cases h; exact hc
  | cons op ops ih =>
    obtain ⟨hop, hops⟩ := List.forall_mem_cons.mp hops
    obtain ⟨u, hu⟩ := serve_next op s
    rw [runOps_cons hu] at h
    have hcount := ih (serve_hasCounted hc hp hop hu) hops h
    rwa [Nat.add_assoc, Nat.add_comm _ (ticksIn ops), ticksIn, ← List.countP_cons] at hcount

/-- Settles O30: SCH_INIT starts the count at 0, and every run counts its ticks modulo the period. -/
theorem crossingsComeEveryPeriodTicks : Obligations.CrossingsComeEveryPeriodTicks := by
  intro s i per ops hs hper hops
  have hp := toNat_pos_of_perAt hs hper
  obtain ⟨d, hd, -⟩ := perAt_eq_some.mp hper
  obtain ⟨s0, hs0, -, hcols⟩ := exec_schInit_columns s
  obtain ⟨-, hel0, hper0⟩ := hcols i (table_lt_nTask hd)
  obtain ⟨t, ht⟩ := runOps_next ops s0
  have hstart : HasCounted s0 i per 0 := ⟨hper0.trans hper, 0#16, hel0, (Nat.zero_mod _).symm⟩
  obtain ⟨hper', el, hel, hmod⟩ := runOps_hasCounted hstart hp hops ht
  rw [Nat.zero_add] at hmod
  exact ⟨s0, t, el, hs0, ht, hper', hel, hmod, hmod ▸ crosses_iff_dvd hp _⟩

/-! ### The counters do not depend on the dispatcher (R83) -/

/-- `SameCounters`, column by column. -/
theorem sameCounters_iff : SameCounters s t ↔ ∀ j, t.elAt j = s.elAt j ∧ t.perAt j = s.perAt j := by
  simp only [SameCounters, List.ext_getElem?_iff, List.getElem?_map, State.elAt, State.perAt]
  refine forall_congr' fun j => ?_
  cases t.table[j]? <;> cases s.table[j]? <;> simp

theorem SameCounters.nTask (h : SameCounters s t) : t.nTask = s.nTask := by
  simpa [State.nTask] using congrArg List.length h

/-- Writes that compute the counters of each descriptor from its counters alone keep the agreement of two states. -/
theorem sameCounters_writeTable {s' t' : State} {f : Nat → Descr → Descr}
    (ht : ∀ j, t.table[j]? = (s.table[j]?).map (f j)) (ht' : ∀ j, t'.table[j]? = (s'.table[j]?).map (f j))
    (hf : ∀ j d d', d'.el = d.el → d'.per = d.per → (f j d').el = (f j d).el ∧ (f j d').per = (f j d).per)
    (h : SameCounters s s') : SameCounters t t' := by
  simp only [sameCounters_iff, State.elAt, State.perAt] at h ⊢
  refine fun j => ?_
  obtain ⟨hel, hper⟩ := h j
  rw [ht, ht']
  cases hd : s.table[j]? with
  | none =>
    have hd' : s'.table[j]? = none := by simpa [hd] using hel
    simp [hd']
  | some d =>
    obtain ⟨d', hd', hel⟩ := Option.map_eq_some_iff.mp (hd ▸ hel)
    have hper : d'.per = d.per := by simpa [hd, hd'] using hper
    simpa [hd'] using hf j d d' hel hper

/-- The counters after a tick depend on the counters only (R77). -/
theorem tick_counters_congr {d d' : Descr} (hel : d'.el = d.el) (hper : d'.per = d.per) :
    d'.tick.el = d.tick.el ∧ d'.tick.per = d.tick.per := by
  refine ⟨?_, by rw [tick_per, tick_per, hper]⟩
  by_cases hc : d.per.toNat ≤ d.el.toNat + 1
  · rw [tick_of_crosses hc, tick_of_crosses (by rwa [hel, hper])]
  · have hc : d.el.toNat + 1 < d.per.toNat := Nat.lt_of_not_le hc
    rw [tick_of_not_crosses hc, tick_of_not_crosses (by rwa [hel, hper]), hel]

theorem sameCounters_tickAll {s' : State} (h : SameCounters s s') : SameCounters s.tickAll s'.tickAll :=
  sameCounters_writeTable (tickAll_getElem? s) (tickAll_getElem? s') (fun _ _ _ => tick_counters_congr) h

theorem sameCounters_setPer {s' : State} (h : SameCounters s s') (i : Nat) (period : Half) :
    SameCounters (s.setPer i period) (s'.setPer i period) :=
  sameCounters_writeTable (setPer_getElem? s i · period) (setPer_getElem? s' i · period)
    (fun j d d' hel hper => by split <;> simp [hel, hper]) h

theorem sameCounters_init {s' : State} (h : SameCounters s s') :
    SameCounters { s with table := s.table.map Descr.init } { s' with table := s'.table.map Descr.init } :=
  sameCounters_writeTable (f := fun _ => Descr.init) (fun _ => List.getElem?_map) (fun _ => List.getElem?_map)
    (fun _ _ _ _ hper => ⟨rfl, hper⟩) h

/-- The commands that write no counter (R35). -/
theorem Effect.sameCounters {i : Instr} (h : Effect s i t) (htick : i ≠ .schTick) (hinit : i ≠ .schInit)
    (hset : ∀ idx period, i ≠ .schSetper idx period) : SameCounters s t :=
  sameCounters_iff.mpr fun j => ⟨h.elAt htick hinit j, h.perAt hset j⟩

/-- SCH_SETPER is refused alike, or writes the same period, in states with the same counters. -/
theorem exec_schSetper_sameCounters {s' t' : State} (hs : SameCounters s s') {idx : Octet} {period : Half}
    (h : exec (.schSetper idx period) s = .next t) (h' : exec (.schSetper idx period) s' = .next t') :
    SameCounters t t' := by
  have hn := hs.nTask
  rcases Nat.lt_or_ge idx.toNat s.nTask with hidx | hidx
  · by_cases hp : period = 0#16
    · subst hp
      cases (exec_schSetper_zero hidx).symm.trans h
      cases (exec_schSetper_zero (hn ▸ hidx)).symm.trans h'
      exact hs
    · cases (exec_schSetper_of_lt hidx hp).symm.trans h
      cases (exec_schSetper_of_lt (hn ▸ hidx) hp).symm.trans h'
      exact sameCounters_setPer hs idx.toNat period
  · cases (exec_schSetper_of_ge hidx period).symm.trans h
    cases (exec_schSetper_of_ge (hn ▸ hidx) period).symm.trans h'
    exact hs

/-- Every command keeps the agreement of two states in their counters. -/
theorem exec_sameCounters {s' t' : State} (hs : SameCounters s s') {i : Instr} (h : exec i s = .next t)
    (h' : exec i s' = .next t') : SameCounters t t' := by
  cases i with
  | schInit =>
    cases h
    cases h'
    exact sameCounters_init hs
  | schTick =>
    cases h
    cases h'
    exact sameCounters_tickAll hs
  | schSetper idx period => exact exec_schSetper_sameCounters hs h h'
  | _ =>
    have hkept := (exec_effect h).sameCounters nofun nofun nofun
    have hkept' := (exec_effect h').sameCounters nofun nofun nofun
    exact hkept'.trans (hs.trans hkept.symm)

/-- Every operation keeps the agreement of two states in their counters. -/
theorem serve_sameCounters {s' t' : State} (hs : SameCounters s s') {op : Op} (h : serve op s = .next t)
    (h' : serve op s' = .next t') : SameCounters t t' := by
  rcases serve_cases op s with ⟨rfl, -⟩ | ⟨w, r, rfl, hd, -⟩ | ⟨w, i, rfl, hd, -⟩
  · cases h
    cases h'
    exact sameCounters_tickAll hs
  · cases (serveCommand_of_illegal hd s).symm.trans h
    cases (serveCommand_of_illegal hd s').symm.trans h'
    exact hs
  · exact exec_sameCounters hs ((serveCommand_of_decode hd s).symm.trans h) ((serveCommand_of_decode hd s').symm.trans h')

/-- Two states with the same counters have the same counters after any run. -/
theorem runOps_sameCounters {s' t' : State} (hs : SameCounters s s') {ops : List Op} (h : runOps ops s = .next t)
    (h' : runOps ops s' = .next t') : SameCounters t t' := by
  induction ops generalizing s s' with
  | nil =>
    cases h
    cases h'
    exact hs
  | cons op ops ih =>
    obtain ⟨u, hu⟩ := serve_next op s
    obtain ⟨u', hu'⟩ := serve_next op s'
    rw [runOps_cons hu] at h
    rw [runOps_cons hu'] at h'
    exact ih (serve_sameCounters hs hu hu') h h'

/-! ### The dispatcher does not depend on the counters (R83) -/

/-- Two states answered alike, with the same ST, CUR, BUSY and STATUS: what the dispatcher reads and writes. -/
def SameButCounters (s s' : State) : Prop :=
  s'.responses = s.responses ∧ s'.table.map Descr.st = s.table.map Descr.st ∧ SameDispatcher s s' ∧ SameStatus s s'

theorem map_st_eq_iff : t.table.map Descr.st = s.table.map Descr.st ↔ ∀ j, t.stAt j = s.stAt j := by
  simp only [List.ext_getElem?_iff, List.getElem?_map, State.stAt]

theorem SameButCounters.nTask {s' : State} (h : SameButCounters s s') : s'.nTask = s.nTask := by
  obtain ⟨-, hst, -⟩ := h
  simpa [State.nTask] using congrArg List.length hst

theorem SameButCounters.stAt {s' : State} (h : SameButCounters s s') (j : Nat) : s'.stAt j = s.stAt j := by
  obtain ⟨-, hst, -⟩ := h
  exact map_st_eq_iff.mp hst j

theorem SameButCounters.nextCur {s' : State} (h : SameButCounters s s') : s'.nextCur = s.nextCur := by
  have ⟨_, _, ⟨hcur, _⟩, _⟩ := h
  rw [State.nextCur, State.nextCur, hcur, h.nTask]

theorem SameButCounters.wraps {s' : State} (h : SameButCounters s s') : s'.wraps = s.wraps := by
  have ⟨_, _, ⟨hcur, _⟩, _⟩ := h
  rw [State.wraps, State.wraps, hcur, h.nTask]

/-- Writing the same ST keeps the ST columns equal. -/
theorem SameButCounters.setSt_map_st {s' : State} (h : SameButCounters s s') (i : Nat) (st : TaskState) :
    (s'.setSt i st).table.map Descr.st = (s.setSt i st).table.map Descr.st :=
  map_st_eq_iff.mpr fun j => by rw [setSt_stAt, setSt_stAt, h.stAt]

theorem SameButCounters.respond {s' : State} (h : SameButCounters s s') (ok : Bool) (w : Word) :
    SameButCounters (s.respond ok w) (s'.respond ok w) := by
  obtain ⟨hresp, hrest⟩ := h
  exact ⟨congrArg (_ :: ·) hresp, hrest⟩

theorem SameButCounters.raiseCmdError {s' : State} (h : SameButCounters s s') (e : CmdError) :
    SameButCounters (s.raiseCmdError e) (s'.raiseCmdError e) := by
  obtain ⟨hresp, hst, hdsp, hstatus⟩ := h
  exact ⟨congrArg (_ :: ·) hresp, hst, hdsp, congrArg (statusAfter e) hstatus⟩

theorem SameButCounters.runVisit {s' : State} (h : SameButCounters s s') :
    SameButCounters s.runVisit s'.runVisit := by
  have ⟨hresp, _, ⟨hcur, _⟩, hstatus⟩ := h
  refine ⟨?_, ?_, ⟨hcur, rfl⟩, hstatus⟩
  · rw [runVisit_responses, runVisit_responses, hresp, hcur]
  · rw [runVisit_table, runVisit_table, hcur]
    exact h.setSt_map_st _ _

theorem SameButCounters.idleVisit {s' : State} (h : SameButCounters s s') :
    SameButCounters s.idleVisit s'.idleVisit := by
  have ⟨hresp, hst, ⟨hcur, hbusy⟩, hstatus⟩ := h
  refine ⟨?_, hst, ⟨h.nextCur, hbusy⟩, hstatus⟩
  rw [idleVisit_responses, idleVisit_responses, hresp, hcur, h.wraps]

theorem SameButCounters.endHandler {s' : State} (h : SameButCounters s s') :
    SameButCounters s.endHandler s'.endHandler := by
  have ⟨hresp, _, ⟨hcur, _⟩, hstatus⟩ := h
  refine ⟨?_, ?_, ⟨h.nextCur, rfl⟩, hstatus⟩
  · rw [endHandler_responses, endHandler_responses, hresp, hcur, h.wraps]
  · rw [endHandler_table, endHandler_table, hcur]
    exact h.setSt_map_st _ _

/-- A dispatcher command takes the same branch, with the same answer, whatever the counters are. -/
theorem exec_dispatcher_sameButCounters {s' : State} (hs : SameButCounters s s') {i : Instr}
    (hi : i ∈ ([.dspStep, .dspDone, .dspRdstat] : List Instr)) :
    ∃ t t', exec i s = .next t ∧ exec i s' = .next t' ∧ SameButCounters t t' := by
  have ⟨_, _, ⟨hcur, hbusy⟩, _⟩ := hs
  simp only [List.mem_cons, List.not_mem_nil, or_false] at hi
  rcases hi with rfl | rfl | rfl
  · cases hb : s.busy with
    | true => exact ⟨_, _, exec_dspStep_of_busy hb, exec_dspStep_of_busy (hbusy.trans hb), hs.raiseCmdError .seq⟩
    | false =>
      have hat : s'.stAt s'.cur.toNat = s.stAt s.cur.toNat := by rw [hcur, hs.stAt]
      by_cases hr : s.stAt s.cur.toNat = some .ready
      · exact ⟨_, _, exec_dspStep_of_ready hb hr, exec_dspStep_of_ready (hbusy.trans hb) (hat.trans hr), hs.runVisit⟩
      · exact ⟨_, _, exec_dspStep_of_idle hb hr, exec_dspStep_of_idle (hbusy.trans hb) (hat ▸ hr), hs.idleVisit⟩
  · cases hb : s.busy with
    | true => exact ⟨_, _, exec_dspDone_of_busy hb, exec_dspDone_of_busy (hbusy.trans hb), hs.endHandler⟩
    | false => exact ⟨_, _, exec_dspDone_of_idle hb, exec_dspDone_of_idle (hbusy.trans hb), hs.raiseCmdError .seq⟩
  · refine ⟨_, _, rfl, rfl, ?_⟩
    rw [hcur, hbusy]
    exact hs.respond _ _

/-- Settles O31: no dispatcher command writes or reads a counter, and every run computes the counters from the counters
alone. -/
theorem countersAreIndependentOfDispatch : Obligations.CountersAreIndependentOfDispatch := by
  refine ⟨fun i s hi => ?_, fun ops s s' hs => ?_⟩
  · obtain ⟨t, ht⟩ := exec_next i s
    refine ⟨t, ht, (exec_effect ht).sameCounters (fun h => by simp [h] at hi) (fun h => by simp [h] at hi)
      (fun _ _ h => by simp [h] at hi), fun table htable => ?_⟩
    have hsame : SameButCounters s { s with table := table } := ⟨rfl, htable, ⟨rfl, rfl⟩, rfl⟩
    obtain ⟨u, t', hu, ht', hagree⟩ := exec_dispatcher_sameButCounters hsame hi
    cases ht.symm.trans hu
    exact ⟨t', ht', hagree⟩
  · obtain ⟨t, ht⟩ := runOps_next ops s
    obtain ⟨t', ht'⟩ := runOps_next ops s'
    exact ⟨t, t', ht, ht', runOps_sameCounters hs ht ht'⟩

end Sys2Proof.Machine
end

section
/-! PROOFS. The dispatcher family (41_dispatcher.md): what DSP_STEP, DSP_DONE and DSP_RDSTAT do (R91, R94, R97), who ends a
handler (R95, R99), and the order of the visits (R93). -/

namespace Sys2Proof.Machine

variable {s t : State}

/-! ### The index of a visit -/

theorem wraps_iff : s.wraps = true ↔ s.cur.toNat + 1 = s.nTask := beq_iff_eq

/-- CUR after a visit that moves on (R91, R94), in a state of the invariant. -/
theorem nextCur_toNat_of_inv (hs : s.Inv) : s.nextCur.toNat = (s.cur.toNat + 1) % s.nTask := by
  obtain ⟨hpos, hle⟩ := hs.nTask_range
  exact nextCur_toNat (hle.trans (by decide)) hpos

/-- A descriptor at CUR that is not READY is STANDBY while no handler runs (R37). -/
theorem stAt_cur_standby (hs : s.Inv) (hb : s.busy = false) (hr : s.stAt s.cur.toNat ≠ some .ready) :
    s.stAt s.cur.toNat = some .standby := by
  obtain ⟨d, hd⟩ := exists_descr hs.cur_lt
  have hst : s.stAt s.cur.toNat = some d.st := stAt_eq_some.mpr ⟨d, hd, rfl⟩
  cases h : d.st with
  | standby => rw [hst, h]
  | ready => exact absurd (h ▸ hst) hr
  | execute =>
    obtain ⟨hbusy, -⟩ := hs.execute_only _ (h ▸ hst)
    exact absurd hbusy (by simp [hb])

/-- The word of a visit that moves on: RUN = 0, WRAP at the last index only, and the index (R91, R94). -/
theorem visitWord_movingOn (s : State) :
    (visitWord false s.wraps s.cur).getLsbD 31 = false ∧
      ((visitWord false s.wraps s.cur).getLsbD 30 = true ↔ s.cur.toNat + 1 = s.nTask) ∧
      (visitWord false s.wraps s.cur).extractLsb' 8 22 = 0#22 ∧
      (visitWord false s.wraps s.cur).extractLsb' 0 8 = s.cur :=
  ⟨visitWord_run _ _ _, by rw [visitWord_wrap, wraps_iff], visitWord_middle _ _ _, visitWord_index _ _ _⟩

/-! ### The three commands (R91, R94, R97) -/

/-- Settles O35: BUSY and the ST at CUR choose the refusal, the run visit or the idle visit. -/
theorem dspStepResult : Obligations.DspStepResult := by
  refine ⟨rfl, fun s hs => ?_⟩
  cases hb : s.busy with
  | true => exact ⟨_, exec_dspStep_of_busy hb, fun _ => raiseCmdError_refused s .seq, nofun, nofun⟩
  | false =>
    by_cases hr : s.stAt s.cur.toNat = some .ready
    · exact ⟨_, exec_dspStep_of_ready hb hr, nofun,
        fun _ _ => ⟨setSt_nTask s _ _, runVisit_stAt_cur hs.cur_lt, fun i hi => setSt_stAt_of_ne s hi.symm .execute,
          setSt_sameCounters s _ _, rfl, rfl, ⟨rfl, rfl, rfl⟩, rfl, rfl, rfl,
          _, rfl, visitWord_run _ _ _, visitWord_wrap _ _ _, visitWord_middle _ _ _, visitWord_index _ _ _⟩,
        fun _ h => absurd hr h⟩
    · exact ⟨_, exec_dspStep_of_idle hb hr, nofun, fun _ h => absurd h hr,
        fun _ _ => ⟨stAt_cur_standby hs hb hr, rfl, hb, nextCur_toNat_of_inv hs, ⟨rfl, rfl, rfl⟩, rfl, rfl, rfl,
          _, rfl, visitWord_movingOn s⟩⟩

/-- Settles O36: BUSY chooses the refusal or the end of the handler. -/
theorem dspDoneResult : Obligations.DspDoneResult := by
  refine ⟨rfl, fun s hs => ?_⟩
  cases hb : s.busy with
  | false => exact ⟨_, exec_dspDone_of_idle hb, fun _ => raiseCmdError_refused s .seq, nofun⟩
  | true =>
    exact ⟨_, exec_dspDone_of_busy hb, nofun,
      fun _ => ⟨setSt_nTask s _ _, endHandler_stAt_cur hs.cur_lt, fun i hi => setSt_stAt_of_ne s hi.symm .standby,
        setSt_sameCounters s _ _, rfl, nextCur_toNat_of_inv hs, ⟨rfl, rfl, rfl⟩, rfl, rfl, rfl,
        _, rfl, visitWord_movingOn s⟩⟩

/-- Settles O37: the fields of the word are those of `dispatcherWord`. -/
theorem dspRdstatResult : Obligations.DspRdstatResult := by
  refine ⟨rfl, fun s => ⟨_, dispatcherWord s.busy s.cur, rfl, respond_onlyAnswers s _, dispatcherWord_high _ _,
    dispatcherWord_busy _ _, dispatcherWord_cur _ _, fun hs => ?_⟩⟩
  rw [dispatcherWord_cur]
  exact hs.cur_lt

/-! ### Who ends a handler (R95, R99) -/

/-- Only DSP_STEP and DSP_DONE write CUR and BUSY (R35). -/
theorem serve_sameDispatcher {op : Op} (h : serve op s = .next t) (hstep : op.instr ≠ some .dspStep)
    (hdone : op.instr ≠ some .dspDone) : SameDispatcher s t := by
  rcases serve_effect h with ⟨-, rfl⟩ | ⟨-, -, rfl⟩ | ⟨i, hi, -, heff⟩
  · exact ⟨rfl, rfl⟩
  · exact ⟨rfl, rfl⟩
  · exact heff.sameDispatcher (by simpa [hi] using And.intro hstep hdone)

/-- While a handler runs, only DSP_DONE writes CUR or BUSY: a DSP_STEP is refused. -/
theorem serve_sameDispatcher_of_busy {op : Op} (h : serve op s = .next t) (hb : s.busy = true)
    (hop : op.instr ≠ some .dspDone) : SameDispatcher s t := by
  by_cases hstep : op.instr = some .dspStep
  · cases (exec_dspStep_of_busy hb).symm.trans ((serve_of_instr hstep s).symm.trans h)
    exact ⟨rfl, rfl⟩
  · exact serve_sameDispatcher h hstep hop

/-- A run without a DSP_DONE keeps a running handler and its index. -/
theorem runOps_sameDispatcher_of_busy {ops : List Op} (h : runOps ops s = .next t) (hb : s.busy = true)
    (hops : ∀ op ∈ ops, op.instr ≠ some .dspDone) : SameDispatcher s t := by
  induction ops generalizing s with
  | nil => cases h; exact ⟨rfl, rfl⟩
  | cons op ops ih =>
    obtain ⟨hop, hops⟩ := List.forall_mem_cons.mp hops
    obtain ⟨u, hu⟩ := serve_next op s
    rw [runOps_cons hu] at h
    obtain ⟨hcur, hbusy⟩ := serve_sameDispatcher_of_busy hu hb hop
    obtain ⟨hcur', hbusy'⟩ := ih h (hbusy.trans hb) hops
    exact ⟨hcur'.trans hcur, hbusy'.trans hbusy⟩

/-- Settles O39: the run keeps CUR and BUSY, so a DSP_STEP at its end is refused. -/
theorem onlyDspDoneEndsAHandler : Obligations.OnlyDspDoneEndsAHandler := by
  intro ops s hb hops
  obtain ⟨t, ht⟩ := runOps_next ops s
  obtain ⟨hcur, hbusy⟩ := runOps_sameDispatcher_of_busy ht hb hops
  have hb' := hbusy.trans hb
  exact ⟨t, _, ht, hb', hcur, exec_dspStep_of_busy hb', raiseCmdError_refused t .seq⟩

/-! ### The order of the visits (R93) -/

/-- The index the next successful DSP_STEP visits: CUR, or the one after it while the handler of CUR runs. -/
def State.nextVisit (s : State) : Nat := (s.cur.toNat + s.busy.toNat) % s.nTask

/-- The next visit is at CUR while no handler runs. -/
theorem nextVisit_of_idle (hs : s.Inv) (hb : s.busy = false) : s.nextVisit = s.cur.toNat := by
  simp [State.nextVisit, hb, Nat.mod_eq_of_lt hs.cur_lt]

/-- The next visit is past CUR while the handler of CUR runs. -/
theorem nextVisit_of_busy (hb : s.busy = true) : s.nextVisit = (s.cur.toNat + 1) % s.nTask := by
  simp [State.nextVisit, hb]

theorem nextVisit_congr (h : SameDispatcher s t) (hn : t.nTask = s.nTask) : t.nextVisit = s.nextVisit := by
  obtain ⟨hcur, hbusy⟩ := h
  rw [State.nextVisit, State.nextVisit, hcur, hbusy, hn]

theorem visitedIndex_of_ne {op : Op} (h : op.instr ≠ some .dspStep) (t : State) : visitedIndex op t = none := if_neg h

/-- A refusal visits nothing. -/
theorem visitedIndex_raiseCmdError (op : Op) (s : State) (e : CmdError) : visitedIndex op (s.raiseCmdError e) = none := by
  simp [visitedIndex]

/-- A DSP_STEP answered with the word of a visit visits the index in it. -/
theorem visitedIndex_of_answers {op : Op} (hop : op.instr = some .dspStep) {run wrap : Bool} {c : Octet}
    (h : Answers s t true (visitWord run wrap c)) : visitedIndex op t = some c.toNat := by
  rw [Answers] at h
  simp [visitedIndex, hop, h, visitWord_index]

/-- An operation visits nothing and keeps the next visit, or visits it and moves it on in table order. -/
def VisitsInOrder (op : Op) (s t : State) : Prop :=
  (visitedIndex op t = none ∧ t.nextVisit = s.nextVisit) ∨
    (visitedIndex op t = some s.nextVisit ∧ t.nextVisit = (s.nextVisit + 1) % s.nTask)

theorem visitsInOrder_of_sameDispatcher {op : Op} (hop : op.instr ≠ some .dspStep) (h : SameDispatcher s t)
    (hn : t.nTask = s.nTask) : VisitsInOrder op s t :=
  .inl ⟨visitedIndex_of_ne hop t, nextVisit_congr h hn⟩

/-- A run visit leaves CUR to the DSP_DONE that ends it; an idle visit moves CUR on at once (R91). -/
theorem exec_dspStep_visitsInOrder (hs : s.Inv) {op : Op} (hop : op.instr = some .dspStep)
    (h : exec .dspStep s = .next t) : VisitsInOrder op s t := by
  cases hb : s.busy with
  | true =>
    cases (exec_dspStep_of_busy hb).symm.trans h
    exact .inl ⟨visitedIndex_raiseCmdError op s .seq, rfl⟩
  | false =>
    rw [VisitsInOrder, nextVisit_of_idle hs hb]
    by_cases hr : s.stAt s.cur.toNat = some .ready
    · cases (exec_dspStep_of_ready hb hr).symm.trans h
      rw [nextVisit_of_busy (runVisit_busy s), runVisit_cur]
      exact .inr ⟨visitedIndex_of_answers hop (runVisit_responses s), congrArg _ (setSt_nTask s _ _)⟩
    · cases (exec_dspStep_of_idle hb hr).symm.trans h
      rw [nextVisit_of_idle (inv_idleVisit hs hb) hb]
      exact .inr ⟨visitedIndex_of_answers hop (idleVisit_responses s), nextCur_toNat_of_inv hs⟩

/-- DSP_DONE makes CUR the index that was next while its handler ran (R94). -/
theorem exec_dspDone_visitsInOrder (hs : s.Inv) {op : Op} (hop : op.instr = some .dspDone)
    (h : exec .dspDone s = .next t) : VisitsInOrder op s t := by
  refine .inl ⟨visitedIndex_of_ne (by simp [hop]) t, ?_⟩
  cases hb : s.busy with
  | true =>
    cases (exec_dspDone_of_busy hb).symm.trans h
    rw [nextVisit_of_busy hb, nextVisit_of_idle (inv_endHandler hs) (endHandler_busy s)]
    exact nextCur_toNat_of_inv hs
  | false =>
    cases (exec_dspDone_of_idle hb).symm.trans h
    rfl

theorem serve_visitsInOrder (hs : s.Inv) {op : Op} (h : serve op s = .next t) : VisitsInOrder op s t := by
  by_cases hstep : op.instr = some .dspStep
  · exact exec_dspStep_visitsInOrder hs hstep ((serve_of_instr hstep s).symm.trans h)
  by_cases hdone : op.instr = some .dspDone
  · exact exec_dspDone_visitsInOrder hs hdone ((serve_of_instr hdone s).symm.trans h)
  obtain ⟨hn, -⟩ := serve_sizes h
  exact visitsInOrder_of_sameDispatcher hstep (serve_sameDispatcher h hstep hdone) hn

theorem visits_cons {op : Op} (h : serve op s = .next t) (ops : List Op) :
    visits (op :: ops) s = (visitedIndex op t).toList ++ visits ops t := by
  simp only [visits, h]

/-- The m-th visit of a run is m places after the next one, round after round. -/
theorem visits_getElem? {ops : List Op} (hs : s.Inv) {m c : Nat} (h : (visits ops s)[m]? = some c) :
    c = (s.nextVisit + m) % s.nTask := by
  induction ops generalizing s m with
  | nil => cases h
  | cons op ops ih =>
    obtain ⟨t, ht⟩ := serve_next op s
    obtain ⟨hn, -⟩ := serve_sizes ht
    rw [visits_cons ht] at h
    rcases serve_visitsInOrder hs ht with ⟨hnone, hnext⟩ | ⟨hsome, hnext⟩
    · rw [hnone] at h
      rw [← hnext, ← hn]
      exact ih (serve_inv ht hs) h
    · rw [hsome] at h
      cases m with
      | zero =>
        obtain rfl : s.nextVisit = c := Option.some.inj h
        exact (Nat.mod_mod _ _).symm
      | succ m =>
        calc c = (t.nextVisit + m) % t.nTask := ih (serve_inv ht hs) h
          _ = (s.nextVisit + (m + 1)) % s.nTask := by rw [hnext, hn, Nat.mod_add_mod, Nat.add_assoc, Nat.add_comm 1 m]

/-- Settles O38: with no handler running the next visit is at CUR. -/
theorem visitsFollowTheTableOrder : Obligations.VisitsFollowTheTableOrder := by
  intro ops s hs hb m c h
  rw [← nextVisit_of_idle hs hb]
  exact visits_getElem? hs h

end Sys2Proof.Machine
end

section
/-! PROOFS. The ring buffer family (42_ringbuffer.md): what each command answers and leaves (R102 to R110), the window after
a push (R111, R112) and after a run of operations since a clear (R107), and the bounds of its sum (R106). -/

namespace Sys2Proof.Machine

variable {s t : State}

/-! ### What the window holds -/

/-- The window is never longer than the ring (R101). -/
theorem window_length_le (hs : s.Inv) : s.window.length ≤ s.cap := (window_length s).trans_le hs.cnt_le

/-- Every value of the window is held by a slot. -/
theorem mem_slot_of_mem_window (hcap : 1 ≤ s.cap) {v : Half} (hv : v ∈ s.window) : v ∈ s.slot := by
  obtain ⟨j, -, rfl⟩ := List.mem_map.mp hv
  exact List.mem_of_getElem? (slotAt_pushedAgo hcap (j + 1))

/-- The last value of a nonempty window is the one pushed CNT pushes ago. -/
theorem window_getLast? (hcnt : s.cnt.toNat ≠ 0) : s.window.getLast? = some (s.pushedAgo s.cnt.toNat) := by
  rw [State.window, List.getLast?_map, List.getLast?_range, if_neg hcnt, Option.map_some,
    Nat.sub_add_cancel (Nat.pos_of_ne_zero hcnt)]

/-! ### The mean of the window (R105, R106) -/

/-- The average is the floor of the mean of the window, which counts an empty one as 0 (R105). -/
theorem average_eq_floorMean (s : State) : s.average = floorMean s.window := by
  by_cases h : s.cnt = 0#8
  · rw [average_of_empty h, window_of_empty h]
    rfl
  · rw [average_of_nonempty h, floorMean, window_length]

/-- A sum of 16-bit values is bounded by their number, each being at most 65535 (R106). -/
theorem sum_toNat_le (values : List Half) : (values.map BitVec.toNat).sum ≤ values.length * 65535 := by
  have h := List.sum_le_card_nsmul (values.map BitVec.toNat) 65535 fun x hx => by
    obtain ⟨v, -, rfl⟩ := List.mem_map.mp hx
    exact Nat.le_of_lt_succ v.isLt
  simpa using h

/-- The mean of 16-bit values fits 16 bits. -/
theorem floorMean_le (values : List Half) : floorMean values ≤ 65535 :=
  Nat.div_le_of_le_mul (sum_toNat_le values)

/-- The mean of the window as RB_AVG's word holds it. -/
theorem floorMean_word_toNat (values : List Half) : (BitVec.ofNat 32 (floorMean values)).toNat = floorMean values := by
  have := floorMean_le values
  rw [BitVec.toNat_ofNat]
  omega

/-- The mean of the window by the slots of R105. -/
theorem floorMean_window (hs : s.Inv) : floorMean s.window = windowSum s / s.cnt.toNat := by
  rw [floorMean, window_sum hs.cap_range.1, window_length]

theorem windowSum_le (hs : s.Inv) : windowSum s ≤ s.cap * 65535 := by
  rw [← window_sum hs.cap_range.1]
  exact (sum_toNat_le s.window).trans (Nat.mul_le_mul_right _ (window_length_le hs))

/-- When every slot holds one value, the window sums to CNT times it. -/
theorem windowSum_of_constant (hs : s.Inv) {v : Half} (h : ∀ x ∈ s.slot, x = v) :
    windowSum s = s.cnt.toNat * v.toNat := by
  have hcap := hs.cap_range.1
  have hwin : s.window = List.replicate s.cnt.toNat v :=
    List.eq_replicate_iff.mpr ⟨window_length s, fun x hx => h x (mem_slot_of_mem_window hcap hx)⟩
  rw [← window_sum hcap, hwin, List.map_replicate, List.sum_replicate, smul_eq_mul]

/-! ### The commands, in terms of the window -/

/-- RB_AVG answers the floor of the window's mean. -/
theorem exec_rbAvg (s : State) : exec .rbAvg s = .next (s.respond true (BitVec.ofNat 32 (floorMean s.window))) := by
  rw [← average_eq_floorMean]
  rfl

/-- RB_LAST answers the head of the window, 0 when there is none (R108). -/
theorem exec_rbLast (s : State) : exec .rbLast s = .next (s.respond true (halfWord (s.window.headD 0#16))) := by
  rw [← last_eq_window_headD]
  rfl

/-- Of an empty window RB_AVG and RB_LAST answer 0. -/
theorem readsZero_of_empty (h : s.cnt = 0#8) :
    ∀ i ∈ [Instr.rbAvg, .rbLast], ∃ u, exec i s = .next u ∧ OnlyAnswers s u 0#32 := by
  have hwin := window_of_empty h
  simp only [List.forall_mem_cons]
  refine ⟨⟨_, exec_rbAvg s, ?_⟩, ⟨_, exec_rbLast s, ?_⟩, nofun⟩ <;> rw [hwin] <;> exact respond_onlyAnswers s 0#32

/-- Of a window of one value RB_AVG and RB_LAST answer that value. -/
theorem readsValue_of_window_singleton {v : Half} (h : s.window = [v]) :
    ∀ i ∈ [Instr.rbAvg, .rbLast], ∃ u w, exec i s = .next u ∧ OnlyAnswers s u w ∧ w.toNat = v.toNat := by
  have hmean : floorMean [v] = v.toNat := Nat.div_one v.toNat
  simp only [List.forall_mem_cons]
  refine ⟨⟨_, _, exec_rbAvg s, respond_onlyAnswers s _, ?_⟩, ⟨_, _, exec_rbLast s, respond_onlyAnswers s _, ?_⟩, nofun⟩
  · rw [floorMean_word_toNat, h, hmean]
  · rw [halfWord_toNat, h, List.headD_cons]

/-- Of a cleared ring RB_STAT answers 0 (R110). -/
theorem exec_rbStat_of_cleared (hcnt : s.cnt = 0#8) (hwix : s.wix = 0#8) :
    exec .rbStat s = .next (s.respond true 0#32) := by
  simp only [exec, execRbStat, hcnt, hwix]
  rfl

/-- The window after a push: the value before the old window, cut to CAP values (R103, R111). -/
theorem push_window_eq_take (hs : s.Inv) (v : Half) : (s.push v).window = (v :: s.window).take s.cap := by
  rw [push_window hs, ← List.take_succ_cons, Nat.sub_add_cancel hs.cap_range.1]

/-! ### Which operations write the ring -/

/-- Only RB_PUSH and RB_CLEAR write the ring buffer (10_state.md R35). -/
theorem serve_sameRing {op : Op} (h : serve op s = .next t) (hpush : ∀ v, op.instr ≠ some (.rbPush v))
    (hclear : op.instr ≠ some .rbClear) : SameRing s t := by
  rcases serve_effect h with ⟨-, rfl⟩ | ⟨-, -, rfl⟩ | ⟨i, hi, -, heff⟩
  · exact ⟨rfl, rfl, rfl⟩
  · exact ⟨rfl, rfl, rfl⟩
  · exact heff.sameRing (fun v hv => hpush v (hv ▸ hi)) (fun hc => hclear (hc ▸ hi))

/-- Serving an operation that pushes. -/
theorem eq_push_of_serve {op : Op} {v : Half} (hop : op.instr = some (.rbPush v)) (h : serve op s = .next t) :
    t = (s.push v).respond true 0#32 := by
  rw [serve_of_instr hop] at h
  cases h
  rfl

/-- An operation other than RB_CLEAR does not lower CNT (R102). -/
theorem serve_cnt_le {op : Op} (hs : s.Inv) (hop : op.instr ≠ some .rbClear) (h : serve op s = .next t) :
    s.cnt.toNat ≤ t.cnt.toNat := by
  by_cases hpush : ∃ v, op.instr = some (.rbPush v)
  · obtain ⟨v, hv⟩ := hpush
    rw [eq_push_of_serve hv h, respond_cnt, push_cnt_toNat hs.cap_range.2]
    split <;> omega
  · obtain ⟨-, -, hcnt⟩ := serve_sameRing h (not_exists.mp hpush) hop
    rw [hcnt]

/-! ### The pushes of a run (R107, R110) -/

theorem pushesAfter_cons_of_push {op : Op} {v : Half} (h : op.instr = some (.rbPush v)) (ops : List Op)
    (acc : List Half) : pushesAfter (op :: ops) acc = pushesAfter ops (v :: acc) := by
  simp only [pushesAfter, h]

theorem pushesAfter_cons_of_ne {op : Op} (h : ∀ v, op.instr ≠ some (.rbPush v)) (ops : List Op) (acc : List Half) :
    pushesAfter (op :: ops) acc = pushesAfter ops acc := by
  rw [pushesAfter]
  split
  next v hv => exact absurd hv (h v)
  next => rfl

/-- The ring has taken these pushes since it was empty, newest first: the window is the last CAP of them, and WIX has moved
on once for each. -/
def HoldsPushes (s : State) (pushed : List Half) : Prop :=
  s.window = pushed.take s.cap ∧ s.wix.toNat = pushed.length % s.cap

theorem HoldsPushes.congr {pushed : List Half} (h : HoldsPushes s pushed) (hring : SameRing s t) :
    HoldsPushes t pushed := by
  have ⟨hslot, hwix, _⟩ := hring
  have hcap : t.cap = s.cap := congrArg List.length hslot
  rwa [HoldsPushes, window_congr hring, hwix, hcap]

/-- A push cuts the window once more, and what it drops was CAP pushes ago already. -/
theorem HoldsPushes.push (hs : s.Inv) {pushed : List Half} (h : HoldsPushes s pushed) (v : Half) :
    HoldsPushes (s.push v) (v :: pushed) := by
  obtain ⟨hwin, hwix⟩ := h
  obtain ⟨hpos, hle⟩ := hs.cap_range
  have hmin : min (s.cap - 1) s.cap = s.cap - 1 := Nat.min_eq_left (Nat.sub_le _ _)
  rw [HoldsPushes, push_cap]
  constructor
  · rw [push_window hs, hwin, List.take_take, hmin, ← List.take_succ_cons, Nat.sub_add_cancel hpos]
  · rw [push_wix_toNat hpos hle, hwix, Nat.mod_add_mod, List.length_cons]

/-- RB_CLEAR leaves a ring that has taken no push. -/
theorem holdsPushes_clear (s : State) : HoldsPushes ({ s with cnt := 0#8, wix := 0#8 }.respond true 0#32) [] :=
  ⟨(window_of_empty rfl).trans List.take_nil.symm, (Nat.zero_mod _).symm⟩

/-- CNT counts the pushes up to CAP. -/
theorem HoldsPushes.cnt {pushed : List Half} (h : HoldsPushes s pushed) : s.cnt.toNat = min s.cap pushed.length := by
  obtain ⟨hwin, -⟩ := h
  rw [← window_length, hwin, List.length_take]

/-- A run without RB_CLEAR takes its pushes. -/
theorem runOps_holdsPushes {ops : List Op} (hs : s.Inv) {pushed : List Half} (hp : HoldsPushes s pushed)
    (hops : ∀ op ∈ ops, op.instr ≠ some .rbClear) (h : runOps ops s = .next t) :
    HoldsPushes t (pushesAfter ops pushed) ∧ t.cap = s.cap := by
  induction ops generalizing s pushed with
  | nil => cases h; exact ⟨hp, rfl⟩
  | cons op ops ih =>
    obtain ⟨hop, hops⟩ := List.forall_mem_cons.mp hops
    obtain ⟨u, hu⟩ := serve_next op s
    obtain ⟨-, hcap⟩ := serve_sizes hu
    rw [runOps_cons hu] at h
    rw [← hcap]
    by_cases hpush : ∃ v, op.instr = some (.rbPush v)
    · obtain ⟨v, hv⟩ := hpush
      have hu' : HoldsPushes u (v :: pushed) := by
        rw [eq_push_of_serve hv hu]
        exact hp.push hs v
      rw [pushesAfter_cons_of_push hv]
      exact ih (serve_inv hu hs) hu' hops h
    · have hne := not_exists.mp hpush
      rw [pushesAfter_cons_of_ne hne]
      exact ih (serve_inv hu hs) (hp.congr (serve_sameRing hu hne hop)) hops h

/-- After RB_CLEAR and a run without another, the ring holds the run's pushes, from every state of the invariant. -/
theorem holdsPushes_since_clear {ops : List Op} (hs : s.Inv) (hops : ∀ op ∈ ops, op.instr ≠ some .rbClear) :
    ∃ s0 t, exec .rbClear s = .next s0 ∧ runOps ops s0 = .next t ∧ HoldsPushes t (pushesIn ops) ∧ t.cap = s.cap := by
  obtain ⟨t, ht⟩ := runOps_next ops ({ s with cnt := 0#8, wix := 0#8 }.respond true 0#32)
  exact ⟨_, t, rfl, ht, runOps_holdsPushes (inv_respond (inv_clearRing hs) _ _) (holdsPushes_clear s) hops ht⟩

/-- Settles O47: the run takes its pushes, by induction on the operations, and RB_AVG answers the mean of the window. -/
theorem averageIsTheMeanOfTheLastPushes : Obligations.AverageIsTheMeanOfTheLastPushes := by
  intro ops s hs hops
  obtain ⟨s0, t, hs0, ht, ⟨hwin, -⟩, hcap⟩ := holdsPushes_since_clear hs hops
  rw [hcap] at hwin
  exact ⟨s0, t, _, hs0, ht, hwin, exec_rbAvg t, by rw [← hwin]; rfl⟩

/-! ### The five commands (R102 to R110) -/

/-- Settles O41: RB_CLEAR leaves CNT 0, of which the three reading commands answer 0, and CNT is lowered by no other. -/
theorem rbClearResult : Obligations.RbClearResult := by
  refine ⟨rfl, fun op s hs hop => ?_, fun s => ⟨_, rfl, rfl, rfl, rfl, rfl, ⟨rfl, rfl⟩, rfl, rfl, rfl, rfl, ?_, rfl⟩⟩
  · obtain ⟨t, ht⟩ := serve_next op s
    exact ⟨t, ht, serve_cnt_le hs hop ht⟩
  · obtain ⟨havg, hlast⟩ := List.forall_mem_cons.mp
      (readsZero_of_empty (s := { s with cnt := 0#8, wix := 0#8 }.respond true 0#32) rfl)
    obtain ⟨hlast, -⟩ := List.forall_mem_cons.mp hlast
    simp only [List.forall_mem_cons]
    exact ⟨havg, hlast, ⟨_, exec_rbStat_of_cleared rfl rfl, respond_onlyAnswers _ _⟩, nofun⟩

/-- Settles O43: RB_AVG answers the mean of the window, a 16-bit value, and nothing else changes. -/
theorem rbAvgResult : Obligations.RbAvgResult := by
  refine ⟨rfl, fun s hs => ⟨_, _, exec_rbAvg s, respond_onlyAnswers s _, fun h => ?_, fun _ => ?_, ?_⟩⟩
  · rw [window_of_empty h]
    rfl
  · rw [floorMean_word_toNat, floorMean_window hs]
  · rw [floorMean_word_toNat]
    exact floorMean_le s.window

/-- Settles O44: RB_LAST answers the head of the window, which is the slot before WIX when there is one. -/
theorem rbLastResult : Obligations.RbLastResult := by
  refine ⟨rfl, fun s hs => ⟨_, _, rfl, respond_onlyAnswers s _, fun h => ?_, fun h => ?_⟩⟩
  · rw [if_pos h]
    rfl
  · exact ⟨_, slotAt_pushedAgo hs.cap_range.1 1, by rw [if_neg h, halfWord_toNat]⟩

/-- Settles O45: the fields are those of `ringWord`; after CAP pushes CNT counts CAP and WIX has gone round once. -/
theorem rbStatResult : Obligations.RbStatResult := by
  refine ⟨rfl, fun s => ⟨_, _, rfl, respond_onlyAnswers s _, ringWord_high _ _, ringWord_cnt _ _, ringWord_wix _ _⟩,
    fun ops s hs hops hlen => ?_⟩
  obtain ⟨s0, t, hs0, ht, hpushes, hcap⟩ := holdsPushes_since_clear hs hops
  have ⟨_, hwix⟩ := hpushes
  refine ⟨s0, t, _, _, hs0, ht, rfl, respond_onlyAnswers t _, ?_, ?_⟩
  · rw [ringWord_cnt, hpushes.cnt, hcap, hlen, Nat.min_self]
  · rw [ringWord_wix]
    refine BitVec.eq_of_toNat_eq ?_
    rw [hwix, hcap, hlen, Nat.mod_self]
    rfl

/-- The mask of a command with a value only keeps all but the value (30_encoding.md R62, R63). -/
theorem c32_imm_and_mask (op : Octet) (imm : Half) : c32 op 0#8 imm &&& 0xFFFF0000#32 = c32 op 0#8 0#16 := by
  have hmask : 0xFFFF0000#32 = c32 0xFF#8 0xFF#8 0#16 := rfl
  have hop : op &&& 0xFF#8 = op := BitVec.and_allOnes
  rw [hmask, c32_and, BitVec.and_zero, BitVec.zero_and, hop]

/-- Settles O42: the push writes one slot, WIX and CNT, with no wrap of the 8-bit indices as CAP is at most 255. -/
theorem rbPushResult : Obligations.RbPushResult := by
  intro s v hs
  obtain ⟨hpos, hle⟩ := hs.cap_range
  refine ⟨c32_imm_and_mask _ _, immField_c32 _ _ _, _, rfl, push_cap s v, ?_, fun j hj => ?_, push_wix_toNat hpos hle v,
    fun h => ?_, fun h => ?_, rfl, ⟨rfl, rfl⟩, rfl, rfl, rfl, rfl⟩
  · exact List.getElem?_set_self hs.wix_lt
  · exact List.getElem?_set_ne hj.symm
  · rw [respond_cnt, push_cnt_toNat hle, if_pos h]
  · rw [respond_cnt, push_cnt, if_neg h.not_lt]

/-! ### The window after a push, and the bounds of its sum -/

/-- Settles O46: the window is that of `push_window_eq_take`, and in a full ring the slot CAP pushes back is WIX itself. -/
theorem pushKeepsTheMostRecentValues : Obligations.PushKeepsTheMostRecentValues := by
  refine fun s v hs => ⟨_, rfl, push_window_eq_take hs v, fun hfull => ?_⟩
  have hpos := hs.cap_range.1
  have hidx : (s.wix.toNat + s.cap - s.cnt.toNat) % s.cap = s.wix.toNat := by
    rw [hfull, Nat.add_sub_cancel, Nat.mod_eq_of_lt hs.wix_lt]
  refine ⟨hidx, ?_⟩
  rw [window_getLast? (by omega), ← slotAt_pushedAgo hpos, hidx]

/-- A full ring of CAP = 255 slots, each holding 65535: the largest sum there is (R106). -/
def fullOfMaxima : State :=
  { State.resetOf { Params.reference with cap := 255 } (fun _ => 65535#16) with cnt := 255#8 }

theorem fullOfMaxima_cap : fullOfMaxima.cap = 255 := resetOf_cap { Params.reference with cap := 255 } _

theorem inv_fullOfMaxima : fullOfMaxima.Inv :=
  { inv_resetOf (p := { Params.reference with cap := 255 }) (by decide) (fun _ => 65535#16) with
    cnt_le := fullOfMaxima_cap.ge
    partial_window := fun h => absurd fullOfMaxima_cap h.ne' }

theorem windowSum_fullOfMaxima : windowSum fullOfMaxima = 255 * 65535 :=
  windowSum_of_constant inv_fullOfMaxima (v := 65535#16) fun x hx => by
    obtain ⟨j, -, rfl⟩ := List.mem_map.mp hx
    rfl

/-- Settles O48: at most 255 values of at most 65535 are summed, and `fullOfMaxima` attains that. -/
theorem averageNeedsA24BitAccumulator : Obligations.AverageNeedsA24BitAccumulator := by
  refine ⟨fun s hs => ?_, fullOfMaxima, inv_fullOfMaxima, by rw [windowSum_fullOfMaxima]; decide⟩
  have hsum := windowSum_le hs
  have hcap := hs.cap_range.2
  rw [average_eq_floorMean]
  exact ⟨hsum, by omega, floorMean_le s.window, fun _ => floorMean_window hs⟩

theorem wix_eq_zero_of_cap_one (hs : s.Inv) (hcap : s.cap = 1) : s.wix = 0#8 :=
  BitVec.eq_of_toNat_eq (Nat.lt_one_iff.mp (hcap ▸ hs.wix_lt))

/-- Settles O50: with CAP = 1 the window after a push is the value alone. -/
theorem capacityOneHoldsTheLastPush : Obligations.CapacityOneHoldsTheLastPush := by
  intro s v hs hcap
  have hwin : (s.push v).window = [v] := by
    rw [push_window_eq_take hs, hcap]
    rfl
  have hcnt : (s.push v).cnt = 1#8 := BitVec.eq_of_toNat_eq (by rw [← window_length, hwin]; rfl)
  have hwix : (s.push v).wix = 0#8 := wix_eq_zero_of_cap_one (inv_push hs v) ((push_cap s v).trans hcap)
  exact ⟨wix_eq_zero_of_cap_one hs hcap, hcap ▸ hs.cnt_le, readsZero_of_empty, _, rfl, hcnt, hwix,
    readsValue_of_window_singleton hwin⟩

end Sys2Proof.Machine
end

section
/-! PROOFS. The formatter family (43_formatter.md): the text of a value and its refusal (R115, R122), the average as such a
value (R119), and what FBUF holds before any successful format (R121). -/

namespace Sys2Proof.Machine

variable {s t : State}

/-! ### Formatting a value (R115, R122) -/

theorem format_refusedWith {v : Nat} (h : 99 < v) : RefusedWith s (s.format v) .range := by
  rw [State.format, if_pos h]
  exact raiseCmdError_refused s .range

/-- A value at most 99 is written to FBUF and answered, and nothing else changes. -/
theorem format_writes_text {v : Nat} (h : v ≤ 99) :
    (s.format v).fbuf = fmtText v ∧ SameTable s (s.format v) ∧ SameDispatcher s (s.format v) ∧
      SameRing s (s.format v) ∧ SameStatus s (s.format v) ∧ SameInputs s (s.format v) ∧
      Answers s (s.format v) true (s.format v).fbuf := by
  rw [State.format, if_neg h.not_gt]
  exact ⟨rfl, rfl, ⟨rfl, rfl⟩, ⟨rfl, rfl, rfl⟩, rfl, rfl, rfl⟩

/-- Settles O51: above 99 the refusal; else both quotients are digits, whose characters are those of `fmtText`. -/
theorem fmtValResult : Obligations.FmtValResult := by
  refine fun s value => ⟨c32_imm_and_mask _ _, immField_c32 _ _ _, _, rfl, format_refusedWith, fun h => ?_⟩
  obtain ⟨htext, hframe⟩ := format_writes_text (s := s) h
  have htens : value.toNat / 10 ≤ 9 := by omega
  have hunits : value.toNat % 10 ≤ 9 := by omega
  refine ⟨?_, ?_, ?_, ?_, hframe⟩ <;> rw [htext]
  · rw [fmtText_tens, digitChar_toNat htens]
  · rw [fmtText_units, digitChar_toNat hunits]
  · exact fmtText_point _
  · exact fmtText_fraction _

/-! ### Formatting the average (R119, R120) -/

/-- RB_AVG's word is a 16-bit value, zero-extended (42_ringbuffer.md R105). -/
theorem exists_half_average (s : State) :
    ∃ a : Half, a.toNat = s.average ∧ exec .rbAvg s = .next (s.respond true (halfWord a)) := by
  have hle := floorMean_le s.window
  rw [← average_eq_floorMean] at hle
  have ha : (BitVec.ofNat 16 s.average).toNat = s.average := by
    rw [BitVec.toNat_ofNat]
    omega
  have hword : BitVec.ofNat 32 s.average = halfWord (BitVec.ofNat 16 s.average) := by
    refine BitVec.eq_of_toNat_eq ?_
    rw [halfWord_toNat, ha, BitVec.toNat_ofNat]
    omega
  exact ⟨_, ha, hword ▸ rfl⟩

/-- FMT_AVG is FMT_VAL of a value that is the average. -/
theorem exec_fmtAvg_eq_fmtVal {a : Half} (ha : a.toNat = s.average) : exec .fmtAvg s = exec (.fmtVal a) s := by
  simp only [exec, execFmtAvg, execFmtVal, ha]

/-- Settles O52: FMT_AVG is FMT_VAL of RB_AVG's value, which for an empty window is 0. -/
theorem fmtAvgResult : Obligations.FmtAvgResult := by
  refine ⟨rfl, fun s _ => ?_⟩
  obtain ⟨a, ha, havg⟩ := exists_half_average s
  refine ⟨a, s.format a.toNat, _, havg, rfl, exec_fmtAvg_eq_fmtVal ha, format_refusedWith, fun h => ?_, fun h => ?_⟩
  · obtain ⟨-, htable, hdisp, hring, hstatus, hinputs, hans⟩ := format_writes_text (s := s) h
    exact ⟨rfl, hans, htable, hdisp, hring, hstatus, hinputs⟩
  · rw [ha, average_of_empty h]
    exact ⟨rfl, rfl⟩

/-! ### FBUF before any successful format (R121) -/

/-- Only a successful format writes FBUF (10_state.md R35): a format command that writes it answers a success. -/
theorem serve_sameFbuf_of_not_formatted {op : Op} (h : serve op s = .next t) (hf : formatted op t = false) :
    SameFbuf s t := by
  rcases serve_effect h with ⟨-, rfl⟩ | ⟨-, -, rfl⟩ | ⟨i, hop, -, heff⟩
  · rfl
  · rfl
  · cases heff with
    | format _ v hi _ => rcases hi with ⟨x, rfl⟩ | rfl <;> simp [formatted, hop] at hf
    | _ => rfl

theorem formats_cons {op : Op} (h : serve op s = .next t) (ops : List Op) :
    formats (op :: ops) s = (formatted op t).toNat + formats ops t := by
  simp only [formats, h]

/-- A run without a successful format keeps FBUF. -/
theorem runOps_sameFbuf {ops : List Op} (h : runOps ops s = .next t) (hf : formats ops s = 0) : SameFbuf s t := by
  induction ops generalizing s with
  | nil => cases h; rfl
  | cons op ops ih =>
    obtain ⟨u, hu⟩ := serve_next op s
    rw [runOps_cons hu] at h
    rw [formats_cons hu, Nat.add_eq_zero_iff, Bool.toNat_eq_zero] at hf
    obtain ⟨hnow, hlater⟩ := hf
    exact (ih h hlater).trans (serve_sameFbuf_of_not_formatted hu hnow)

/-- Settles O53: FMT_RDBUF answers FBUF alone, and the run keeps there the 0 of reset. -/
theorem fmtRdbufResult : Obligations.FmtRdbufResult := by
  refine ⟨rfl, fun s => ⟨_, rfl, respond_onlyAnswers s s.fbuf⟩, fun p fill ops hops => ?_⟩
  obtain ⟨t, ht⟩ := runOps_next ops (State.resetOf p fill)
  have hfbuf : t.fbuf = 0#32 := runOps_sameFbuf ht hops
  exact ⟨t, _, ht, rfl, by rw [← hfbuf]; rfl⟩

end Sys2Proof.Machine
end

section
/-! PROOFS. The control family (44_control.md): the error bits that stay (R125), the read of STATUS (R124) and its clear
(R126). -/

namespace Sys2Proof.Machine

/-! ### Error bits stay set (R125) -/

/-- The error bits of STATUS are the sticky bits of the refusals (R132). -/
theorem exists_stickyBit_eq {b : Nat} (hb : b < 5) : ∃ e : CmdError, e.stickyBit = b :=
  match b, hb with
  | 0, _ => ⟨.ill, rfl⟩
  | 1, _ => ⟨.badIdx, rfl⟩
  | 2, _ => ⟨.badPer, rfl⟩
  | 3, _ => ⟨.seq, rfl⟩
  | 4, _ => ⟨.range, rfl⟩

/-- A refusal clears no error bit (R131). -/
theorem statusAfter_keeps_errorBit (e : CmdError) {status : Word} {b : Nat} (hb : b < 5)
    (h : status.getLsbD b = true) : (statusAfter e status).getLsbD b = true := by
  obtain ⟨e', rfl⟩ := exists_stickyBit_eq hb
  rw [statusAfter_stickyBit, h, Bool.true_or]

/-- Settles O16: an operation other than CTL_CLRERR is refused, and then STATUS keeps its error bits, or it leaves STATUS
alone. -/
theorem errorBitsAreSticky : Obligations.ErrorBitsAreSticky := by
  refine ⟨fun op s hop => ?_, fun s => ⟨_, rfl, rfl⟩, fun _ _ => rfl⟩
  obtain ⟨t, ht⟩ := serve_next op s
  refine ⟨t, ht, ?_⟩
  rcases serve_status ht hop with ⟨e, hst, hans⟩ | ⟨hst, -⟩
  · exact ⟨fun b hb hset => hst ▸ statusAfter_keeps_errorBit e hb hset, fun hno => absurd hans (hno _)⟩
  · exact ⟨fun b _ hset => hst ▸ hset, fun _ => hst⟩

/-! ### Reading STATUS (R124) -/

/-- Settles O54: CTL_RDSTATUS is a response alone, and STATUS is 0 after reset. -/
theorem ctlRdstatusResult : Obligations.CtlRdstatusResult :=
  ⟨rfl, fun s => ⟨_, rfl, respond_onlyAnswers s s.status⟩, fun _ _ => ⟨_, rfl, rfl⟩⟩

/-! ### Clearing STATUS (R126) -/

/-- The only legal word with the OP of CTL_CLRERR is its encoding: the command uses neither field (R63, R65). -/
theorem eq_encode_ctlClrerr_of_decodes {w : Word} (hop : opField w = 0xF1#8) (h : ∃ i, decode w = .ok i) :
    w = encode .ctlClrerr := by
  obtain ⟨-, hidx, himm⟩ := (decodes_iff_fields w).mp h
  rw [hop] at hidx himm
  have hidx : idxField w = 0#8 := hidx.resolve_right (by decide)
  have himm : immField w = 0#16 := himm.resolve_right (by decide)
  calc w = c32 (opField w) (idxField w) (immField w) := (c32_fields w).symm
    _ = c32 0xF1#8 0#8 0#16 := by rw [hop, hidx, himm]

/-- Settles O56: the clear is by definition; a malformed word is no command, so it is refused with code 1, which sets
E_ILL. -/
theorem ctlClrerrResult : Obligations.CtlClrerrResult := by
  refine ⟨rfl, fun s => ⟨⟨_, rfl, rfl, rfl, rfl, ⟨rfl, rfl⟩, ⟨rfl, rfl, rfl⟩, rfl, rfl⟩, fun w hop hne => ?_⟩⟩
  have hill : ¬ ∃ i, decode w = .ok i := fun hdec => hne (eq_encode_ctlClrerr_of_decodes hop hdec)
  have hbit : (statusAfter .ill s.status).getLsbD CmdError.ill.stickyBit = true := by simp [statusAfter_stickyBit]
  exact ⟨_, serveCommand_of_not_decodes hill s, raiseCmdError_refused s .ill, hbit⟩

end Sys2Proof.Machine
end

section
/-! PROOFS. The exceptions family (60_exceptions.md): what a refusal writes (R131), which word is refused for which cause
(R130 to R134), that every operation has a step (R149), and a tick racing a DSP_STEP (R135). -/

namespace Sys2Proof.Machine

variable {s t : State}

/-! ### The refusal primitive (R131) -/

theorem code_range (e : CmdError) : 1 ≤ e.code ∧ e.code ≤ 5 := by cases e <;> decide

/-- The code of a refusal, moved to STATUS[10:8], sets no bit outside that field. -/
theorem codeWord_shift_bit_false (e : CmdError) {b : Nat} (h : b < 8 ∨ 10 < b) :
    (e.codeWord <<< 8).getLsbD b = false := by
  rcases h with h | h
  · simp [h]
  · have hcode : e.code < 2 ^ (b - 8) :=
      calc e.code < 2 ^ 3 := (code_range e).2.trans_lt (by decide)
        _ ≤ 2 ^ (b - 8) := Nat.pow_le_pow_right (by decide) (by omega)
    simp [CmdError.codeWord, BitVec.getLsbD_ofNat, Nat.testBit_lt_two_pow hcode]

/-- A refusal keeps every bit of STATUS but its sticky bit and LASTERR. -/
theorem statusAfter_other_bit (e : CmdError) (status : Word) {b : Nat} (hne : b ≠ e.stickyBit) (h : b < 8 ∨ 10 < b) :
    (statusAfter e status).getLsbD b = status.getLsbD b := by
  rcases Nat.lt_or_ge b 32 with hb | hb
  · have hkept : (0xFFFFF8FF#32).getLsbD b = true :=
      (by decide : ∀ b < 32, b < 8 ∨ 10 < b → (0xFFFFF8FF#32).getLsbD b = true) b hb h
    have hsticky : (1#32 <<< e.stickyBit).getLsbD b = false :=
      (BitVec.getLsbD_twoPow e.stickyBit b).trans (by simp [hne.symm])
    rw [getLsbD_statusAfter, BitVec.getLsbD_and, hkept, codeWord_shift_bit_false e h, hsticky, Bool.and_true,
      Bool.or_false, Bool.or_false]
  · rw [BitVec.getLsbD_of_ge _ b hb, BitVec.getLsbD_of_ge _ b hb]

/-- Settles O12: STATUS bit by bit, its sticky bit, LASTERR and the others; the rest is the frame of a refusal. -/
theorem refusalWritesStatusAndAnswersTheCode : Obligations.RefusalWritesStatusAndAnswersTheCode := by
  intro e s
  obtain ⟨htable, hdisp, hring, hfbuf, hinputs, -, hans⟩ := raiseCmdError_refused s e
  obtain ⟨hpos, hle⟩ := code_range e
  have hsticky : (statusAfter e s.status).getLsbD e.stickyBit = true := by simp [statusAfter_stickyBit]
  exact ⟨hpos, hle, hsticky, lastErr_statusAfter e s.status, fun _ => statusAfter_other_bit e s.status, hans, htable,
    hdisp, hring, hfbuf, hinputs⟩

/-! ### Each refusal and its cause (R132, R133) -/

/-- A command word is refused with the code of its cause. -/
theorem serveCommand_of_cause {e : CmdError} {w : Word} (h : RefusalCause e w s) :
    serveCommand w s = .next (s.raiseCmdError e) := by
  cases e with
  | ill =>
    obtain ⟨r, hw⟩ := h
    exact serveCommand_of_illegal hw s
  | badIdx =>
    obtain ⟨idx, hidx, ⟨period, hw⟩ | hw | hw⟩ := h <;> rw [serveCommand_of_decode hw]
    · exact exec_schSetper_of_ge hidx period
    · exact congrArg _ (withDescr_of_ge hidx _)
    · exact congrArg _ (withDescr_of_ge hidx _)
  | badPer =>
    obtain ⟨idx, hidx, hw⟩ := h
    rw [serveCommand_of_decode hw, exec_schSetper_zero hidx]
  | seq =>
    obtain ⟨hw, hb⟩ | ⟨hw, hb⟩ := h <;> rw [serveCommand_of_decode hw]
    · exact exec_dspStep_of_busy hb
    · exact exec_dspDone_of_idle hb
  | range =>
    obtain ⟨value, hv, hw⟩ | ⟨hw, hv⟩ := h <;> rw [serveCommand_of_decode hw]
    · exact congrArg _ (if_pos hv)
    · exact congrArg _ (if_pos hv)

/-- The command answers (1, w) for some word w. -/
def Succeeds (i : Instr) (s : State) : Prop := ∃ t w, exec i s = .next t ∧ Answers s t true w

/-- A command that answers a word of the descriptor it names succeeds when there is one (R62). -/
theorem descrReading_succeeds {i : Instr} {idx : Octet} {f : Descr → Word}
    (hexec : exec i s = .next (s.withDescr idx fun d => s.respond true (f d))) (hidx : idx.toNat < s.nTask) :
    Succeeds i s := by
  obtain ⟨d, hd⟩ := exists_descr hidx
  exact ⟨_, f d, hexec.trans (congrArg _ (withDescr_of_lt hd _)), rfl⟩

/-- A format command succeeds on a value of at most two digits (43_formatter.md R115). -/
theorem format_succeeds {i : Instr} {v : Nat} (hexec : exec i s = .next (s.format v)) (hv : v ≤ 99) : Succeeds i s := by
  obtain ⟨-, -, -, -, -, -, hans⟩ := format_writes_text (s := s) hv
  exact ⟨_, _, hexec, hans⟩

/-- A legal command word has a cause of refusal, or its command succeeds: the checks of R133, command by command. -/
theorem cause_or_succeeds {w : Word} {i : Instr} (hw : decode w = .ok i) (s : State) :
    (∃ e, RefusalCause e w s) ∨ Succeeds i s := by
  cases i with
  | schSetper idx period =>
    rcases Nat.lt_or_ge idx.toNat s.nTask with hidx | hidx
    · by_cases hp : period = 0#16
      · exact .inl ⟨.badPer, idx, hidx, hp ▸ hw⟩
      · exact .inr ⟨_, _, exec_schSetper_of_lt hidx hp, rfl⟩
    · exact .inl ⟨.badIdx, idx, hidx, .inl ⟨period, hw⟩⟩
  | schRddesc idx =>
    rcases Nat.lt_or_ge idx.toNat s.nTask with hidx | hidx
    · exact .inr (descrReading_succeeds rfl hidx)
    · exact .inl ⟨.badIdx, idx, hidx, .inr (.inl hw)⟩
  | schRdper idx =>
    rcases Nat.lt_or_ge idx.toNat s.nTask with hidx | hidx
    · exact .inr (descrReading_succeeds (f := fun d => halfWord d.per) rfl hidx)
    · exact .inl ⟨.badIdx, idx, hidx, .inr (.inr hw)⟩
  | dspStep =>
    cases hb : s.busy with
    | true => exact .inl ⟨.seq, .inl ⟨hw, hb⟩⟩
    | false =>
      by_cases hr : s.stAt s.cur.toNat = some .ready
      · exact .inr ⟨_, _, exec_dspStep_of_ready hb hr, rfl⟩
      · exact .inr ⟨_, _, exec_dspStep_of_idle hb hr, rfl⟩
  | dspDone =>
    cases hb : s.busy with
    | true => exact .inr ⟨_, _, exec_dspDone_of_busy hb, rfl⟩
    | false => exact .inl ⟨.seq, .inr ⟨hw, hb⟩⟩
  | fmtVal value =>
    rcases Nat.lt_or_ge 99 value.toNat with hv | hv
    · exact .inl ⟨.range, .inl ⟨value, hv, hw⟩⟩
    · exact .inr (format_succeeds rfl hv)
  | fmtAvg =>
    rcases Nat.lt_or_ge 99 s.average with hv | hv
    · exact .inl ⟨.range, .inr ⟨hw, hv⟩⟩
    · exact .inr (format_succeeds rfl hv)
  | _ => exact .inr ⟨_, _, rfl, rfl⟩

/-- A command word that answers ok = 0 was refused for a cause of the table (R130, R132). -/
theorem exists_cause_of_refusal {w v : Word} (h : serveCommand w s = .next t) (hans : Answers s t false v) :
    ∃ e, RefusalCause e w s ∧ t = s.raiseCmdError e := by
  have hcause : ∃ e, RefusalCause e w s := by
    cases hw : decode w with
    | error r => exact ⟨.ill, r, hw⟩
    | ok i =>
      refine (cause_or_succeeds hw s).resolve_right fun ⟨u, v', hu, hsucc⟩ => ?_
      rw [serveCommand_of_decode hw, hu] at h
      cases h
      simpa using hsucc.symm.trans hans
  obtain ⟨e, he⟩ := hcause
  rw [serveCommand_of_cause he] at h
  cases h
  exact ⟨e, he, rfl⟩

/-- Settles O13: a cause refuses with its code; a refusal has a cause, and the refusals of a state are told apart by their
codes. -/
theorem eachRefusalHasItsOneCause : Obligations.EachRefusalHasItsOneCause := by
  refine ⟨rfl, fun e w s => ⟨fun h => ?_, serveCommand_of_cause⟩⟩
  obtain ⟨e', hcause, heq⟩ := exists_cause_of_refusal h rfl
  rwa [raiseCmdError_injective heq]

/-- Settles O14: a refusal has a cause, and for that cause it is the refusal primitive. -/
theorem refusalsArePrecise : Obligations.RefusalsArePrecise := by
  intro w v s t h hans
  obtain ⟨e, -, rfl⟩ := exists_cause_of_refusal h hans
  exact ⟨e, raiseCmdError_refused s e⟩

/-- Settles O15: each of the twelve answers without a check. -/
theorem someCommandsAreNeverRefused : Obligations.SomeCommandsAreNeverRefused := by
  intro i s hi
  simp only [List.mem_cons, List.not_mem_nil, or_false] at hi
  obtain (rfl | rfl | rfl | rfl | rfl | rfl | rfl | rfl | rfl | rfl | rfl) | ⟨v, rfl⟩ := hi <;>
    exact ⟨_, _, rfl, rfl⟩

/-! ### Every operation has a step (R149) -/

/-- A step with no operation to come changes nothing (log 5). -/
theorem step_of_inputs_nil (h : s.inputs = []) : step s = .next s := by
  simp only [step, takeOp_nil h, serveNothing]

/-- Settles O9: a step serves the next operation, which answers a next state, or there is none. -/
theorem everyOperationHasAStep : Obligations.EveryOperationHasAStep := by
  refine fun s => ⟨fun op => serve_next op s, ?_, step_of_inputs_nil⟩
  cases hin : s.inputs with
  | nil => exact ⟨s, step_of_inputs_nil hin⟩
  | cons op rest => simpa only [step_of_inputs_cons hin] using serve_next op _

/-! ### The way in (log 7) -/

/-- The opcode table's 32-bit word of a command word is the word itself (R9, R68). -/
theorem tableWord_toNat (w : Word) : tableWord 32 w.toNat = w := by
  rw [tableWord, Nat.mod_eq_of_lt w.isLt, BitVec.ofNat_toNat, BitVec.setWidth_eq]

/-- Settles O8: the step takes the offered word, which is the command's encoding. -/
theorem stepRunsTheOfferedWord : Obligations.StepRunsTheOfferedWord := by
  intro s i
  calc step (s.withFetchWord 32 (encode i).toNat)
      = step (s.offerCommand (encode i)) := by rw [State.withFetchWord, tableWord_toNat]
    _ = exec i s :=
      stepRunsTheDecodedCommand _ _ s.inputs i (offerCommand_inputs s _) (decodeEncodeRoundTrip i)

/-! ### A tick racing a DSP_STEP (R135) -/

/-- Settles O40: the crossing tick makes the descriptor at CUR READY, before the visit or after it. -/
theorem tickAndStepInEitherOrder : Obligations.TickAndStepInEitherOrder := by
  intro s el per _ hb hr hel hper hcross
  obtain ⟨hready, -⟩ := tickAll_columns_of_crosses hel hper hcross
  obtain ⟨hready', -⟩ := tickAll_columns_of_crosses (s := s.idleVisit) hel hper hcross
  have hrun : serve (.command 0x20000000#32) s.tickAll = .next s.tickAll.runVisit :=
    (serve_encode .dspStep _).trans (exec_dspStep_of_ready hb hready)
  have hidle : serve (.command 0x20000000#32) s = .next s.idleVisit :=
    (serve_encode .dspStep _).trans (exec_dspStep_of_idle hb hr)
  refine ⟨⟨s.tickAll.runVisit, _, ?_, rfl, visitWord_run _ _ _, visitWord_index _ _ _, rfl⟩,
    ⟨s.idleVisit.tickAll, _, ?_, rfl, visitWord_run _ _ _, visitWord_index _ _ _, hb, hready'⟩⟩
  · rw [runOps_cons (serve_tickIn s), runOps_cons hrun, runOps_nil]
  · rw [runOps_cons hidle, runOps_cons (serve_tickIn _), runOps_nil]

end Sys2Proof.Machine
end

section
/-! PROOFS. The reset family (70_reset_and_hazards.md): reset as the source's initialisers (R152). -/

namespace Sys2Proof.Machine

variable {s t : State}

/-! ### What a run of SCH_SETPERs keeps -/

/-- The frame of SCH_SETPER that R152 needs: every ST and EL, and the ring buffer. -/
def SameStatesAndRing (s t : State) : Prop :=
  (∀ j, t.stAt j = s.stAt j ∧ t.elAt j = s.elAt j) ∧ SameRing s t

theorem SameStatesAndRing.trans {u : State} (h : SameStatesAndRing s t) (h' : SameStatesAndRing t u) :
    SameStatesAndRing s u := by
  obtain ⟨hcols, hslot, hwix, hcnt⟩ := h
  obtain ⟨hcols', hslot', hwix', hcnt'⟩ := h'
  exact ⟨fun j => ⟨(hcols' j).1.trans (hcols j).1, (hcols' j).2.trans (hcols j).2⟩,
    hslot'.trans hslot, hwix'.trans hwix, hcnt'.trans hcnt⟩

/-- SCH_SETPER, refused or not, writes no ST, no EL and nothing of the ring buffer (10_state.md R35). -/
theorem serve_setperOp_sameStatesAndRing {i : Nat} {period : Half} (h : serve (setperOp i period) s = .next t) :
    SameStatesAndRing s t := by
  have heff := exec_effect ((serve_encode _ s).symm.trans h)
  exact ⟨fun j => ⟨heff.stAt (by simp) (by simp) j, heff.elAt (by simp) (by simp) j⟩, heff.sameRing (by simp) (by simp)⟩

/-- A run of SCH_SETPERs writes no ST, no EL and nothing of the ring buffer. -/
theorem runOps_setperOps_sameStatesAndRing {period : Nat → Half} {is : List Nat}
    (h : runOps (is.map fun i => setperOp i (period i)) s = .next t) : SameStatesAndRing s t := by
  induction is generalizing s with
  | nil =>
    cases h
    exact ⟨fun _ => ⟨rfl, rfl⟩, rfl, rfl, rfl⟩
  | cons i is ih =>
    obtain ⟨u, hu⟩ := serve_next (setperOp i (period i)) s
    rw [List.map_cons, runOps_cons hu] at h
    exact (serve_setperOp_sameStatesAndRing hu).trans (ih h)

/-! ### The reset state, element by element -/

/-- Tables of one length with the same three columns are the same. -/
theorem table_ext (hn : t.nTask = s.nTask)
    (hcols : ∀ i < s.nTask, t.stAt i = s.stAt i ∧ t.elAt i = s.elAt i ∧ t.perAt i = s.perAt i) :
    SameTable s t := by
  refine List.ext_getElem hn fun i ht hs => ?_
  obtain ⟨hst, hel, hper⟩ := hcols i hs
  simp only [State.stAt, State.elAt, State.perAt, List.getElem?_eq_getElem ht, List.getElem?_eq_getElem hs,
    Option.map_some, Option.some_inj] at hst hel hper
  exact (Descr.mk.injEq ..).mpr ⟨hst, hel, hper⟩

/-- A table with every descriptor STANDBY, EL 0 and its reset period is that of reset (R151). -/
theorem sameTable_resetOf {p : Params} (fill : Nat → Half) (hn : t.nTask = p.nTask)
    (hcols : ∀ i < p.nTask, t.stAt i = some .standby ∧ t.elAt i = some 0#16 ∧ t.perAt i = p.periodInit[i]?) :
    SameTable (State.resetOf p fill) t := by
  obtain ⟨hsize, -, hreset, -⟩ := resetGivesEveryElementItsValue p fill
  refine table_ext (hn.trans hsize.symm) fun i hi => ?_
  obtain ⟨hst, hel, hper⟩ := hreset i (hsize ▸ hi)
  rw [hst, hel, hper]
  exact hcols i (hsize ▸ hi)

/-- The slots after reset, when it leaves them as they were (10_state.md R40). -/
theorem resetOf_slot {p : Params} (hcap : s.cap = p.cap) :
    (State.resetOf p fun j => s.slot.getD j 0#16).slot = s.slot := by
  refine List.ext_getElem ((resetOf_cap p _).trans hcap.symm) fun j _ hj => ?_
  simp [State.resetOf, hj]

/-- The state with CUR, BUSY, FBUF and STATUS reset, and no response and no operation to come (R151). -/
theorem eq_resetOf_of_table_and_ring {p : Params} {fill : Nat → Half} (htable : SameTable (State.resetOf p fill) t)
    (hring : SameRing (State.resetOf p fill) t) :
    { t with cur := 0#8, busy := false, fbuf := 0#32, status := 0#32, responses := [], inputs := [] } =
      State.resetOf p fill := by
  obtain ⟨hslot, hwix, hcnt⟩ := hring
  rw [htable, hslot, hwix, hcnt]
  rfl

/-- SCH_INIT and RB_CLEAR leave every descriptor STANDBY with EL 0 and the ring buffer empty, with its slots
(40_scheduler.md R75, 42_ringbuffer.md R102). -/
theorem runOps_schInit_rbClear (s : State) : ∃ t,
    runOps [.command (encode .schInit), .command (encode .rbClear)] s = .next t ∧ t.nTask = s.nTask ∧
      (∀ i < s.nTask, t.stAt i = some .standby ∧ t.elAt i = some 0#16) ∧
      t.slot = s.slot ∧ t.wix = 0#8 ∧ t.cnt = 0#8 := by
  obtain ⟨hinit, -⟩ := schInit_repeats s
  obtain ⟨hsize, -⟩ := (exec_effect hinit).sizes
  obtain ⟨hclear, -⟩ := rbClear_repeats ({ s with table := s.table.map Descr.init }.respond true 0#32)
  exact ⟨_, (runOps_cons ((serve_encode _ s).trans hinit) _).trans (runOps_cons ((serve_encode _ _).trans hclear) []),
    hsize, fun i hi => exec_schInit_cleared hinit hi, rfl, rfl, rfl⟩

/-- Settles O20: SCH_INIT and RB_CLEAR write ST, EL and the ring buffer, the SCH_SETPERs keep them and write the
periods. -/
theorem resetEqualsTheInitialisers : Obligations.ResetEqualsTheInitialisers := by
  intro p s hp hn hcap
  obtain ⟨⟨-, hmax⟩, -, hperiods⟩ := (params_wf_iff p).mp hp
  have hget : ∀ i < p.nTask, p.periodInit[i]? = some (p.periodInit.getD i 0#16) := fun i hi => by
    rw [List.getD_eq_getElem _ _ hi, List.getElem?_eq_getElem hi]
  obtain ⟨u, hu, husize, hcleared, hslot, hwix, hcnt⟩ := runOps_schInit_rbClear s
  obtain ⟨t, ht, htsize, hper⟩ := runOps_setperOps (s := u) (n := p.nTask) (by omega) (by omega)
    fun i hi => hperiods _ (List.mem_of_getElem? (hget i hi))
  obtain ⟨hcols, htslot, htwix, htcnt⟩ := runOps_setperOps_sameStatesAndRing ht
  refine ⟨t, (runOps_append hu _).trans ht, eq_resetOf_of_table_and_ring (sameTable_resetOf _ (by omega) fun i hi => ?_)
    ⟨?_, htwix.trans hwix, htcnt.trans hcnt⟩⟩
  · obtain ⟨hst, hel⟩ := hcols i
    rw [hst, hel, hper i hi, hget i hi]
    obtain ⟨hstandby, hzero⟩ := hcleared i (hn ▸ hi)
    exact ⟨hstandby, hzero, rfl⟩
  · rw [htslot, hslot, resetOf_slot hcap]

end Sys2Proof.Machine
end
